-- ==== Sys2Proof/Word.lean ====
section
/-! DEFINITION. The value types of the Z85 codec block: the 8-bit symbol (spec/30_encoding.md R48), the 32-bit
unsigned chunk value (spec/10_state.md R23) and the base-85 digit (spec/00_scope.md R11). -/

namespace Sys2Proof

/-- A symbol: one 8-bit buffer cell, a byte of raw data or the code of one character (R48). -/
abbrev Byte := BitVec 8

/-- The chunk value `v`, 32 bits, unsigned (R23). -/
abbrev Word := BitVec 32

/-- A base-85 digit, 0 to 84; a larger one is unrepresentable, as spec/93_implementation_defined.md U6 asks. -/
abbrev Digit := Fin 85

end Sys2Proof
end

