-- ==== Sys2Proof/Syntax.lean ====
section
/-! DEFINITION. The commands of the block: the two rows of spec/opcode_table.json (spec/30_encoding.md R46, R47). -/

namespace Sys2Proof

/-- The complete command table (R47). A command has no operand fields: ILEN and IBUF are implicit inputs, OBUF and the
status registers implicit outputs (R46). -/
inductive Instr where
  /-- ENCODE, `op` = 0: raw bytes to Z85 text (R65). -/
  | encode
  /-- DECODE, `op` = 1: Z85 text to raw bytes (R77). -/
  | decode
deriving DecidableEq, Repr

end Sys2Proof
end

