-- ==== Sys2Proof/WellFormed.lean ====
section
/-! DEFINITION. Which commands are well formed. -/

namespace Sys2Proof

/-- Every command is well formed: it has no operand fields, and both values of its one bit are assigned (R46). -/
def Instr.wellFormed : Instr → Bool
  | .encode => true
  | .decode => true

/-- A byte that carries a command holds `op` in bit 0 and nothing in bits 7 to 1, since CMD1 is one bit
wide (R46). That a byte carries it is the model's (log entry 5). -/
def commandByteWellFormed (b : Byte) : Bool := b.toNat < 2

end Sys2Proof
end

