-- ==== Sys2Proof/Decode.lean ====
section
/-! DEFINITION. Decoding and encoding of the command format CMD1 (spec/30_encoding.md R46). -/

namespace Sys2Proof

/-- Why a list of bytes carries no command. -/
inductive DecodeReject where
  /-- There is no byte to read a command from. -/
  | noCommand
  /-- A bit other than `op` is set; CMD1 has one bit (R46). -/
  | strayBits (b : Byte)
deriving DecidableEq, Repr

/-- The operation that the 1-bit operand `op` of START selects: 0 is ENCODE, 1 is DECODE (R46). Both values are
assigned, so this is total. -/
def decodeOp (op : BitVec 1) : Instr :=
  if op = 0 then .encode else .decode

/-- Reads the command in the first byte and gives the bytes after it. Total on any bytes; a byte with a bit set
outside CMD1's one bit is rejected by name. -/
def decode : List Byte → Except DecodeReject (Instr × List Byte)
  | [] => .error .noCommand
  | b :: rest =>
    if commandByteWellFormed b then .ok (decodeOp (b.setWidth 1), rest) else .error (.strayBits b)

/-- The operand `op` of START that selects an operation (R46). -/
def encodeOp : Instr → BitVec 1
  | .encode => 0
  | .decode => 1

/-- The command's byte: `op` in bit 0 (R46), zeros above it. -/
def encode (i : Instr) : List Byte := [(encodeOp i).setWidth 8]

/-- The `nbits`-bit number `w` as bytes, bits 7 to 0 first: bit 0 of `w` is bit 0 of the first byte. -/
def tableBytes (nbits w : Nat) : List Byte :=
  (List.range ((nbits + 7) / 8)).map fun j => BitVec.ofNat 8 (w / 256 ^ j)

/-- What the decoder reads from a word numbered as spec/opcode_table.json numbers it. A command is one byte, so any
byte after it must be zero. -/
def decodeTableWord (nbits w : Nat) : Option Instr :=
  match decode (tableBytes nbits w) with
  | .ok (i, rest) => if rest.all (· == 0) then some i else none
  | .error _ => none

end Sys2Proof
end

