-- ==== Sys2Proof/Config.lean ====
section
/-! DEFINITION. What an implementation fixes (the sizes that follow from LEN_W, spec/00_scope.md R9) and the free
values: constants with no body for every value that spec/ calls unspecified (spec/10_state.md R15 and R28,
spec/70_reset_and_hazards.md R109). -/

namespace Sys2Proof.Config

/-! ## Sizes that follow from LEN_W (R9)

The machine itself takes LEN_W as unbounded, which R9 and spec/93_implementation_defined.md U8 allow (assumption log
entry 1). These functions say what a finite LEN_W means, for statements about a block that has one. -/

/-- IN_MAX, the capacity of IBUF in cells and the largest ILEN (R9). -/
def inMax (lenW : Nat) : Nat := 2 ^ lenW - 1

/-- OUT_MAX, the capacity of OBUF in cells (R9). -/
def outMax (lenW : Nat) : Nat := 5 * (inMax lenW / 4)

/-- OLEN_W, the width of OLEN (R9). -/
def olenW (lenW : Nat) : Nat := lenW + 1

/-! ## Free values

Each is applied to a counter of State, so that two resets, or two moments at which OBUF is unspecified, may
give different values. Nothing in Lean can say what any of them is. -/

/-- What IBUF cell `i` holds when nothing has written it since reset number `n` (R28, R109, R112; log entry 3). -/
opaque freeIbuf : Nat → Nat → Byte

/-- What a host read of OBUF cell `i` gives where the cell is part of no result, at draw number `n`
(R15, R117; log entry 4). -/
opaque freeObuf : Nat → Nat → Byte

/-- V after reset number `n` (R28, R109; log entry 2). -/
opaque freeV : Nat → Word

/-- DIG[0..4] after reset number `n` (R28, R109; log entry 2). -/
opaque freeDig : Nat → Vector Digit 5

/-- CH after reset number `n` (R28, R109; log entry 2). -/
opaque freeCh : Nat → Nat

/-- K after reset number `n` (R28, R109; log entry 2). -/
opaque freeK : Nat → Fin 5

/-- OPL after reset number `n` (R28, R109; log entry 2). -/
opaque freeOpl : Nat → BitVec 1

end Sys2Proof.Config
end

