-- ==== Sys2Proof/Machine/State.lean ====
section
/-! DEFINITION. The state of one block instance (spec/10_state.md R12), the host's moves (spec/00_scope.md R5,
spec/30_encoding.md R58), and the state after reset (R28). ALPHA and REV are constants, not state
(R12): they stand in Machine/Rom.lean. -/

namespace Sys2Proof.Machine

/-- A buffer: the cells that hold a value, in strictly rising index order. A cell that is not listed holds no
value; what a read of it gives is a free value (log entries 3 and 4). -/
abbrev Memory := List Host.Cell

/-- STATE (R19). The code 3 is unrepresentable. -/
inductive Status where
  /-- No operation has been started since reset. -/
  | idle
  /-- An operation is running. -/
  | busy
  /-- The last operation has completed and its results are valid. -/
  | done
deriving DecidableEq, Repr

/-- ERR (R20). The code 3 is unrepresentable. -/
inductive ErrKind where
  /-- The operation succeeded, or no operation has completed. -/
  | none
  /-- InvalidLength(divisor) (spec/60_exceptions.md R92). -/
  | invalidLength
  /-- InvalidByte(position, value) (R93). -/
  | invalidByte
deriving DecidableEq, Repr

/-- A host-visible register, or a cell of a buffer, that the host can read (R29). ALPHA, REV and the working
registers are not among them. -/
inductive HostReg where
  | ibuf (i : Nat)
  | obuf (i : Nat)
  | ilen
  | state
  | err
  | errDiv
  | errPos
  | errChar
  | olen
deriving DecidableEq, Repr

/-- One action of the world outside the block (R5, R58, R108). -/
inductive HostAction where
  /-- The host writes one cell of IBUF; `IBUF[a..] := bytes` is one such action for each byte. -/
  | writeIbuf (i : Nat) (b : Byte)
  /-- The host writes ILEN. -/
  | writeIlen (n : Nat)
  /-- START(op), the one command the host can give (R18). -/
  | start (op : BitVec 1)
  /-- The host reads a register or a cell. -/
  | read (r : HostReg)
  /-- The reset input (R108). -/
  | reset
deriving DecidableEq, Repr

/-- Which agent moves next. -/
inductive Turn where
  /-- The outside world performs an action. -/
  | host (a : HostAction)
  /-- The engine gets one step. -/
  | engine
  /-- WAIT: the host reads STATE until it reads DONE, and the engine runs meanwhile (R58). -/
  | wait
deriving DecidableEq, Repr

/-- The state of one block instance, R12's list, followed by four fields of the MODEL's own (log entries 3, 4 and 6). -/
structure State where
  /-- IBUF, the input buffer (R14). -/
  ibuf : Memory
  /-- OBUF, the output buffer (R15): only cells that are part of a result are listed. -/
  obuf : Memory
  /-- ILEN, the input length (R17); LEN_W is unbounded (R9; log entry 1). -/
  ilen : Nat
  /-- STATE (R19). -/
  status : Status
  /-- ERR (R20). -/
  err : ErrKind
  /-- ERR_DIV (R21), 3 bits. -/
  errDiv : BitVec 3
  /-- ERR_POS (R21). -/
  errPos : Nat
  /-- ERR_CHAR (R21), 8 bits. -/
  errChar : Byte
  /-- OLEN, the output length (R25). -/
  olen : Nat
  /-- DIG[0..4], the encoder's digit buffer (R22). -/
  dig : Vector Digit 5
  /-- V, the chunk value (R23). -/
  v : Word
  /-- CH, the index of the chunk being processed (R24). -/
  ch : Nat
  /-- K, the index within the chunk, 0 to 4 (R24). -/
  k : Fin 5
  /-- OPL, the latched operand of the accepted START (R26). -/
  opl : BitVec 1
  /-- MODEL: how many resets there have been, the argument of the free values that a reset leaves. -/
  resetNo : Nat
  /-- MODEL: the draw number of OBUF's unspecified cells. -/
  obufNo : Nat
  /-- MODEL: the turns still to come, the next one first; when it is empty every turn is the engine's. -/
  script : List Turn
  /-- MODEL: what the host has read so far, the latest first. -/
  seen : List (HostReg × Nat)
deriving DecidableEq, Repr

/-- Why the machine stops. -/
inductive Fault where
  /-- Raised by a host write to IBUF while STATE is BUSY. The host must not make it and the model gives it no such move
  (spec/70_reset_and_hazards.md R114). Safe: the model stops where a block would go on with an unspecified result. -/
  | ibufWriteWhileBusy
  /-- Raised by a host write to ILEN while STATE is BUSY, which R114 forbids in the same way. Safe, for the same reason. -/
  | ilenWriteWhileBusy
deriving DecidableEq, Repr

/-- Why there is no meaning for a command. -/
inductive Refusal where
  /-- Raised by an arm of `exec` for a command that has no meaning yet; no arm raises it now. Safe: nothing is claimed. -/
  | notModelled (mnemonic : String)
deriving DecidableEq, Repr

/-- The state that reset number `n` leaves (R28, R108): the values R28 gives, no cell of a buffer holding a value, and every
register R28 calls unspecified at a free value. `m` is the draw number of OBUF's cells. -/
def State.afterReset (n m : Nat) : State where
  ibuf := []
  obuf := []
  ilen := 0
  status := .idle
  err := .none
  errDiv := 0
  errPos := 0
  errChar := 0
  olen := 0
  dig := Config.freeDig n
  v := Config.freeV n
  ch := Config.freeCh n
  k := Config.freeK n
  opl := Config.freeOpl n
  resetNo := n
  obufNo := m
  script := []
  seen := []

/-- The machine right after its first reset (R28). -/
def State.reset : State := State.afterReset 0 0

end Sys2Proof.Machine
end

