-- ==== Sys2Proof/Machine/Flags.lean ====
section
/-! DEFINITION. The codes of the status fields and the two classification predicates (spec/30_encoding.md R51 to R53). -/

namespace Sys2Proof.Machine

/-- The 2-bit code of STATE (R19, R51). -/
def Status.code : Status → BitVec 2
  | .idle => 0
  | .busy => 1
  | .done => 2

/-- The 2-bit code of ERR (R20, R52). -/
def ErrKind.code : ErrKind → BitVec 2
  | .none => 0
  | .invalidLength => 1
  | .invalidByte => 2

/-- `is_invalid_length` (R53). -/
def ErrKind.isInvalidLength (e : ErrKind) : Bool := e.code == 1

/-- `is_invalid_byte` (R53). -/
def ErrKind.isInvalidByte (e : ErrKind) : Bool := e.code == 2

end Sys2Proof.Machine
end

