-- ==== Sys2Proof/Machine/Rom.lean ====
section
/-! DEFINITION. The two ROMs and their lookups (spec/30_encoding.md R44, R45; spec/40_tables.md R59 to R61). -/

namespace Sys2Proof.Machine

/-- ALPHA[0..84] (R44), index 0 first: digits, lower-case letters, upper-case letters, 23 other characters. 24
entries are the source document's, 61 are general knowledge (spec/93_implementation_defined.md G1; log entry 7). -/
def alphaRom : List Byte :=
  [0x30, 0x31, 0x32, 0x33, 0x34, 0x35, 0x36, 0x37, 0x38, 0x39] ++
  [0x61, 0x62, 0x63, 0x64, 0x65, 0x66, 0x67, 0x68, 0x69, 0x6A, 0x6B, 0x6C, 0x6D] ++
  [0x6E, 0x6F, 0x70, 0x71, 0x72, 0x73, 0x74, 0x75, 0x76, 0x77, 0x78, 0x79, 0x7A] ++
  [0x41, 0x42, 0x43, 0x44, 0x45, 0x46, 0x47, 0x48, 0x49, 0x4A, 0x4B, 0x4C, 0x4D] ++
  [0x4E, 0x4F, 0x50, 0x51, 0x52, 0x53, 0x54, 0x55, 0x56, 0x57, 0x58, 0x59, 0x5A] ++
  [0x2E, 0x2D, 0x3A, 0x2B, 0x3D, 0x5E, 0x21, 0x2F, 0x2A, 0x3F, 0x26, 0x3C] ++
  [0x3E, 0x28, 0x29, 0x5B, 0x5D, 0x7B, 0x7D, 0x40, 0x25, 0x24, 0x23]

/-- REV[0..92] (R45): cell `i` answers for the code `i + 0x21`; 0xFF is the sentinel. The rows are those of
R45's hexadecimal listing, halved. -/
def revRom : List Byte :=
  [0x44, 0xFF, 0x54, 0x53, 0x52, 0x48, 0xFF, 0x4B, 0x4C, 0x46, 0x41, 0xFF, 0x3F, 0x3E, 0x45, 0x00] ++
  [0x01, 0x02, 0x03, 0x04, 0x05, 0x06, 0x07, 0x08, 0x09, 0x40, 0xFF, 0x49, 0x42, 0x4A, 0x47, 0x51] ++
  [0x24, 0x25, 0x26, 0x27, 0x28, 0x29, 0x2A, 0x2B, 0x2C, 0x2D, 0x2E, 0x2F, 0x30, 0x31, 0x32, 0x33] ++
  [0x34, 0x35, 0x36, 0x37, 0x38, 0x39, 0x3A, 0x3B, 0x3C, 0x3D, 0x4D, 0xFF, 0x4E, 0x43, 0xFF, 0xFF] ++
  [0x0A, 0x0B, 0x0C, 0x0D, 0x0E, 0x0F, 0x10, 0x11, 0x12, 0x13, 0x14, 0x15, 0x16, 0x17, 0x18, 0x19] ++
  [0x1A, 0x1B, 0x1C, 0x1D, 0x1E, 0x1F, 0x20, 0x21, 0x22, 0x23, 0x4F, 0xFF, 0x50]

/-- ALPHA has exactly 85 cells (R13). -/
theorem alphaRom_length : alphaRom.length = 85 := by decide

/-- REV has exactly 93 cells (R16). -/
theorem revRom_length : revRom.length = 93 := by decide

/-- ALOOK(d) = ALPHA[d] (R59). Its domain is the digits, so it never reads past the ROM. -/
def alook (d : Digit) : Byte :=
  alphaRom[d.val]'(by rw [alphaRom_length]; exact d.isLt)

/-- The answer of RLOOK (R60). -/
inductive Lookup where
  /-- The character's digit. -/
  | digit (d : Digit)
  /-- The code is below 0x21 or above 0x7D: REV is not read. -/
  | invalidOutOfRange
  /-- The code's cell of REV holds the sentinel. -/
  | invalidInRange
deriving DecidableEq, Repr

/-- RLOOK(c) (R60): the range test first, then one read of REV, then the sentinel test. No cell holds 85 to 254
(R16), so narrowing a cell that is not the sentinel to a digit loses nothing. -/
def rlook (c : Byte) : Lookup :=
  if h : 0x21 ≤ c.toNat ∧ c.toNat ≤ 0x7D then
    let t := revRom[c.toNat - 0x21]'(by rw [revRom_length]; omega)
    if t = 0xFF then .invalidInRange else .digit (Fin.ofNat 85 t.toNat)
  else .invalidOutOfRange

/-- Whether a character code is one of the 85 of the alphabet (R48, R54). -/
def Lookup.isDigit : Lookup → Bool
  | .digit _ => true
  | .invalidOutOfRange => false
  | .invalidInRange => false

/-- The construction of REV from an alphabet (R61): as many sentinels as there are codes from the smallest to the
largest, then `table[code - offset] = value` for each entry. -/
def buildRev (alphabet : List Byte) : List Byte :=
  let codes := alphabet.map BitVec.toNat
  let offset := codes.foldl Nat.min 255
  let top := codes.foldl Nat.max 0
  codes.zipIdx.foldl (fun table e => table.set (e.1 - offset) (BitVec.ofNat 8 e.2))
    (List.replicate (top - offset + 1) 0xFF)

end Sys2Proof.Machine
end

