-- ==== Sys2Proof/Machine/Operands.lean ====
section
/-! DEFINITION. How bytes and characters form a chunk value, and back (spec/20_memory.md R30, R31;
spec/30_encoding.md R49, R50). Byte order and digit order are decided here and nowhere else (R32).
A constant stands left of its factor, so that the kernel's multiplication does not unfold along it. -/

namespace Sys2Proof.Machine

/-- The 32-bit value of four bytes in buffer order, big-endian (R30, R49). -/
def wordOfBytes (b0 b1 b2 b3 : Byte) : Word :=
  BitVec.ofNat 32 (2 ^ 24 * b0.toNat + 2 ^ 16 * b1.toNat + 2 ^ 8 * b2.toNat + b3.toNat)

/-- The byte of offset `j` in a value written as four bytes, big-endian: v[31:24] for `j` = 0, v[7:0] for `j` = 3
(R30, MemWrite of R10). -/
def byteOfWord (v : Word) (j : Fin 4) : Byte := v.extractLsb' (8 * (3 - j.val)) 8

/-- A value as its four bytes in buffer order (R30, R49). -/
def bytesOfWord (v : Word) : List Byte := [byteOfWord v 0, byteOfWord v 1, byteOfWord v 2, byteOfWord v 3]

/-- The digit that one digit step takes: V mod 85 (R70). -/
def remDigit (v : Word) : Digit := ⟨v.toNat % 85, Nat.mod_lt _ (by decide)⟩

/-- What one digit step leaves: V div 85 (R70). -/
def quotWord (v : Word) : Word := BitVec.ofNat 32 (v.toNat / 85)

/-- What one accumulate step leaves: (V * 85 + d) mod 2^32, formed exactly and then reduced (R84). -/
def macWord (v : Word) (d : Digit) : Word := BitVec.ofNat 32 (85 * v.toNat + d.val)

/-- The exact value N of five digits, most significant first (R31, R50). -/
def digitsValue (d0 d1 d2 d3 d4 : Digit) : Nat :=
  52200625 * d0.val + 614125 * d1.val + 7225 * d2.val + 85 * d3.val + d4.val

end Sys2Proof.Machine
end

