-- ==== Sys2Proof/Machine/Ops.lean ====
section
/-! DEFINITION. The shared operations: cells of the buffers, the acceptance of a START, and the two ways an operation
completes, with a result and with an error. -/

namespace Sys2Proof.Machine

/-! ## Buffers (R34, R35: every access is to one 8-bit cell, named by its index) -/

/-- The value cell `i` holds, if it holds one. -/
def Memory.read? : Memory → Nat → Option Byte
  | [], _ => none
  | c :: m, i => if i = c.1 then some c.2 else Memory.read? m i

/-- `S[i] <- b`: the cell's old entry goes, the new one stands in index order. -/
def Memory.write : Memory → Nat → Byte → Memory
  | [], i, b => [(i, b)]
  | c :: m, i, b =>
    if i < c.1 then (i, b) :: c :: m
    else if i = c.1 then (i, b) :: m
    else c :: Memory.write m i b

/-- The cells below index `n` keep their values; a cell at `n` or above holds none any more. -/
def Memory.below (m : Memory) (n : Nat) : Memory := m.filter fun c => c.1 < n

/-- The canonical form: indices strictly rising. An unlisted cell holds no value, so no entry can equal what an
unlisted cell holds. -/
abbrev Memory.wf (m : Memory) : Prop := m.Pairwise fun c d => c.1 < d.1

/-- What a read of IBUF[i] gives: its value, or where it holds none a free value that stays the same until
the next reset (R112; spec/93_implementation_defined.md U5). -/
def ibufRead (s : State) (i : Nat) : Byte := (s.ibuf.read? i).getD (Config.freeIbuf s.resetNo i)

/-- What a host read of OBUF[i] gives: its value where the cell is part of a result, else a free value (R15). -/
def obufRead (s : State) (i : Nat) : Byte := (s.obuf.read? i).getD (Config.freeObuf s.obufNo i)

/-- The operation's input, IBUF[0..ILEN-1] (R14). -/
def State.input (s : State) : List Byte := (List.range s.ilen).map (ibufRead s)

/-- The operation's output, OBUF[0..OLEN-1] (R15). -/
def State.output (s : State) : List Byte := (List.range s.olen).map (obufRead s)

/-! ## Errors (spec/60_exceptions.md) -/

/-- The two error kinds with their payloads (R92 to R94). -/
inductive BlockError where
  /-- InvalidLength(divisor): 4 from ENCODE, 5 from DECODE. -/
  | invalidLength (divisor : BitVec 3)
  /-- InvalidByte(position, value): from DECODE only. -/
  | invalidByte (position : Nat) (value : Byte)
deriving DecidableEq, Repr

/-- `raise E`, the one way an operation ends with an error, as one atomic step (R96): STATE, ERR, the payload registers
and OLEN are written, every cell of OBUF is unspecified, and nothing else changes. -/
def raise : BlockError → State → State
  | .invalidLength d, s =>
    { s with status := .done, err := .invalidLength, errDiv := d, errPos := 0, errChar := 0, olen := 0, obuf := [] }
  | .invalidByte p c, s =>
    { s with status := .done, err := .invalidByte, errDiv := 0, errPos := p, errChar := c, olen := 0, obuf := [] }

/-- The completion step of an operation that succeeds with an output of `n` cells (R36, R65, R77): OBUF[0..n-1] is the
result, and every cell at or above `n` is unspecified (R15). -/
def complete (n : Nat) (s : State) : State :=
  { s with
    status := .done, err := .none, errDiv := 0, errPos := 0, errChar := 0, olen := n, obuf := s.obuf.below n }

/-- An accepted START(op) (R18): what clears an error, since there is no return from one (R99). From here to the
completion every cell of OBUF is unspecified (R15). -/
def acceptStart (op : BitVec 1) (s : State) : State :=
  { s with
    opl := op, status := .busy, err := .none, errDiv := 0, errPos := 0, errChar := 0, olen := 0,
    obuf := [], obufNo := s.obufNo + 1 }

/-- The outcome as the host reads it from the registers of a completed operation: classified by ERR alone (R58, R101). -/
def State.result (s : State) : Except BlockError (List Byte) :=
  match s.err with
  | .none => .ok s.output
  | .invalidLength => .error (.invalidLength s.errDiv)
  | .invalidByte => .error (.invalidByte s.errPos s.errChar)

/-! ## The model's own fields -/

/-- While an operation runs the engine may write OBUF between any two turns, so each turn that begins with STATE = BUSY
draws OBUF's unspecified cells anew (R15, R115; log entry 4). -/
def drawObuf (s : State) : State :=
  match s.status with
  | .busy => { s with obufNo := s.obufNo + 1 }
  | .idle => s
  | .done => s

end Sys2Proof.Machine
end

