-- ==== Sys2Proof/Machine/Encode.lean ====
section
/-! DEFINITION. The encode family: the engine's reference step sequence for ENCODE (spec/41_encode.md R72), one
definition for each of its steps, and the meaning of the command. -/

namespace Sys2Proof.Machine

/-- E4: V takes the big-endian word of the chunk's four bytes (R30, R72). -/
def encLoad (s : State) : State :=
  { s with
    v := wordOfBytes (ibufRead s (4 * s.ch)) (ibufRead s (4 * s.ch + 1)) (ibufRead s (4 * s.ch + 2))
      (ibufRead s (4 * s.ch + 3)) }

/-- ENC_DIGIT at K = `k`: DIG[K] <- V mod 85, V <- V div 85 (R70). -/
def encDigit (k : Fin 5) (s : State) : State :=
  { s with k := k, dig := s.dig.set k.val (remDigit s.v), v := quotWord s.v }

/-- E5: the digit steps at the values of K listed, in their order. -/
def encDigits (ks : List (Fin 5)) (s : State) : State := ks.foldl (fun s k => encDigit k s) s

/-- E6: OBUF[5*CH + k] <- ALOOK(DIG[k]) (R59, R72). -/
def encStoreOne (s : State) (k : Fin 5) : State :=
  { s with obuf := s.obuf.write (5 * s.ch + k.val) (alook s.dig[k.val]) }

/-- E6 for the values of `k` listed. -/
def encStore (ks : List (Fin 5)) (s : State) : State := ks.foldl encStoreOne s

/-- E7 and D7: CH <- CH + 1. -/
def nextChunk (s : State) : State := { s with ch := s.ch + 1 }

/-- E4 to E7, one chunk: K descends from 4 to 0, and the characters are stored from 0 to 4 (R31, R72). -/
def encStep (s : State) : State :=
  nextChunk (encStore [0, 1, 2, 3, 4] (encDigits [4, 3, 2, 1, 0] (encLoad s)))

/-- E3: while CH < ILEN div 4. The first argument bounds the number of chunks. -/
def encLoop : Nat → State → State
  | 0, s => s
  | n + 1, s => if s.ch < s.ilen / 4 then encLoop n (encStep s) else s

/-- ENCODE (R65, R72): the length check, then CH <- 0 and the chunks, then the completion step (E1 to E8). ILEN div 4
chunks are enough for E3 to end by its own test. -/
def execEncode (s : State) : Host.Outcome State Fault Refusal :=
  if s.ilen % 4 ≠ 0 then .next (raise (.invalidLength 4) s)
  else .next (complete (s.ilen / 4 * 5) (encLoop (s.ilen / 4) { s with ch := 0 }))

end Sys2Proof.Machine
end

