-- ==== Sys2Proof/Machine/DecodeText.lean ====
section
/-! DEFINITION. The decode family: the engine's reference step sequence for DECODE (spec/42_decode.md R82), one
definition for each of its steps, and the meaning of the command. -/

namespace Sys2Proof.Machine

/-- A part of the sequence that may raise: the state it leaves, or the error with the state in which it was raised. -/
abbrev Micro := Except (BlockError × State) State

/-- D4: V <- 0. -/
def decClear (s : State) : State := { s with v := 0 }

/-- DEC_MAC with digit `d`: V <- (V * 85 + d) mod 2^32 (R84). -/
def decMac (d : Digit) (s : State) : State := { s with v := macWord s.v d }

/-- DEC_CHAR at K = `k` (R83): both kinds of invalid character raise InvalidByte(5*CH + K, ch). -/
def decChar (k : Fin 5) (s : State) : Micro :=
  let t := { s with k := k }
  let p := 5 * s.ch + k.val
  match rlook (ibufRead s p) with
  | .digit d => .ok (decMac d t)
  | .invalidOutOfRange => .error (.invalidByte p (ibufRead s p), t)
  | .invalidInRange => .error (.invalidByte p (ibufRead s p), t)

/-- D5: DEC_CHAR at the values of K listed, in their order, up to the first that raises. -/
def decCharSeq : List (Fin 5) → State → Micro
  | [], s => .ok s
  | k :: ks, s =>
    match decChar k s with
    | .ok t => decCharSeq ks t
    | .error e => .error e

/-- OBUF[4*CH + j] <- the byte of offset `j` of V (D6). -/
def decStoreOne (s : State) (j : Fin 4) : State :=
  { s with obuf := s.obuf.write (4 * s.ch + j.val) (byteOfWord s.v j) }

/-- D6: MemWrite(OBUF, 4*CH, 4, V), big-endian (R30), for the offsets listed. -/
def decStore (js : List (Fin 4)) (s : State) : State := js.foldl decStoreOne s

/-- D4 to D7, one chunk. -/
def decStep (s : State) : Micro :=
  match decCharSeq [0, 1, 2, 3, 4] (decClear s) with
  | .ok t => .ok (nextChunk (decStore [0, 1, 2, 3] t))
  | .error e => .error e

/-- D3: while CH < ILEN div 5. The first argument bounds the number of chunks. -/
def decLoop : Nat → State → Micro
  | 0, s => .ok s
  | n + 1, s =>
    if s.ch < s.ilen / 5 then
      match decStep s with
      | .ok t => decLoop n t
      | .error e => .error e
    else .ok s

/-- DECODE (R77, R82): the length check, then CH <- 0 and the chunks, then the completion step, with the error that a
chunk raised or with the result (D1 to D8). -/
def execDecode (s : State) : Host.Outcome State Fault Refusal :=
  if s.ilen % 5 ≠ 0 then .next (raise (.invalidLength 5) s)
  else
    match decLoop (s.ilen / 5) { s with ch := 0 } with
    | .ok t => .next (complete (s.ilen / 5 * 4) t)
    | .error (e, t) => .next (raise e t)

end Sys2Proof.Machine
end

