-- ==== Sys2Proof/Machine/HostPort.lean ====
section
/-! DEFINITION. What the world outside the block can do to it: write the input, give START, read, reset
(spec/00_scope.md R5; spec/10_state.md R18, R29; spec/70_reset_and_hazards.md R108, R113, R114). -/

namespace Sys2Proof.Machine

/-- The number a host read gives (R29): the codes of R51 and R52 for STATE and ERR. -/
def hostValue (r : HostReg) (s : State) : Nat :=
  match r with
  | .ibuf i => (ibufRead s i).toNat
  | .obuf i => (obufRead s i).toNat
  | .ilen => s.ilen
  | .state => s.status.code.toNat
  | .err => s.err.code.toNat
  | .errDiv => s.errDiv.toNat
  | .errPos => s.errPos
  | .errChar => s.errChar.toNat
  | .olen => s.olen

/-- A host write to IBUF[i]: any cell, while STATE is not BUSY (R14); none while it is (R114). -/
def hostWriteIbuf (i : Nat) (b : Byte) (s : State) : Host.Outcome State Fault Refusal :=
  match s.status with
  | .busy => .fault .ibufWriteWhileBusy
  | .idle => .next { s with ibuf := s.ibuf.write i b }
  | .done => .next { s with ibuf := s.ibuf.write i b }

/-- A host write to ILEN: any value, while STATE is not BUSY (R17); none while it is (R114). -/
def hostWriteIlen (n : Nat) (s : State) : Host.Outcome State Fault Refusal :=
  match s.status with
  | .busy => .fault .ilenWriteWhileBusy
  | .idle => .next { s with ilen := n }
  | .done => .next { s with ilen := n }

/-- START(op): accepted in IDLE and DONE, ignored in BUSY, where it changes no state and is not queued (R18, R113). -/
def hostStart (op : BitVec 1) (s : State) : Host.Outcome State Fault Refusal :=
  match s.status with
  | .busy => .next s
  | .idle => .next (acceptStart op s)
  | .done => .next (acceptStart op s)

/-- A host read: it changes nothing of the block (R37); the host learns the value. -/
def hostReadReg (r : HostReg) (s : State) : Host.Outcome State Fault Refusal :=
  .next { s with seen := (r, hostValue r s) :: s.seen }

/-- The reset input (R108): R28's values and new free values, in any state; it aborts a running operation (R110). What the
world outside still does, and what it has read, is no state of the block and stays. -/
def hostReset (s : State) : Host.Outcome State Fault Refusal :=
  .next { State.afterReset (s.resetNo + 1) (s.obufNo + 1) with script := s.script, seen := s.seen }

/-- One action of the world outside. -/
def hostAct (a : HostAction) (s : State) : Host.Outcome State Fault Refusal :=
  match a with
  | .writeIbuf i b => hostWriteIbuf i b s
  | .writeIlen n => hostWriteIlen n s
  | .start op => hostStart op s
  | .read r => hostReadReg r s
  | .reset => hostReset s

/-- `IBUF[a..] := bytes` (R58): one write for each byte, consecutive cells from `a`. -/
def writeBytes (a : Nat) (bytes : List Byte) : List Turn :=
  bytes.zipIdx.map fun e => .host (.writeIbuf (a + e.2) e.1)

/-- `read OBUF[0..n-1]` (R58), from cell 0 up. -/
def readOutput (n : Nat) : List Turn := (List.range n).map fun i => .host (.read (.obuf i))

end Sys2Proof.Machine
end

