-- ==== Sys2Proof/Machine/Engine.lean ====
section
/-! DEFINITION. The engine's turn, and which agent moves next. -/

namespace Sys2Proof.Machine

/-- The operation that runs: OPL selects it (R26). There is no program counter and nothing else is fetched (R24). -/
def fetch (s : State) : Instr := decodeOp s.opl

/-- The engine's turn: while BUSY it runs the operation to its completion step, in one step (R6; log entry 6); while IDLE
or DONE it does nothing (R29). -/
def engineTurn (s : State) : Host.Outcome State Fault Refusal :=
  match s.status with
  | .busy => exec (fetch s) (drawObuf s)
  | .idle => .next s
  | .done => .next s

/-- WAIT: while STATE is not DONE the host goes on reading it and the engine has the turn (R58). -/
def waitTurn (rest : List Turn) (s : State) : Host.Outcome State Fault Refusal :=
  match s.status with
  | .done => .next { s with script := rest }
  | .busy => engineTurn s
  | .idle => engineTurn s

/-- One turn of the agent that moves next. -/
def takeTurn (s : State) : Host.Outcome State Fault Refusal :=
  match s.script with
  | [] => engineTurn s
  | .engine :: rest => engineTurn { s with script := rest }
  | .wait :: rest => waitTurn rest s
  | .host a :: rest => hostAct a (drawObuf { s with script := rest })

/-- An accepted START of the command `w`, and the next turn for the engine. A word that is no command starts
nothing (log entry 8). -/
def loadCommand (s : State) (nbits w : Nat) : State :=
  match decodeTableWord nbits w with
  | some i => { acceptStart (encodeOp i) s with script := .engine :: s.script }
  | none => s

end Sys2Proof.Machine
end

