-- ==== Sys2Proof/Machine/Codec.lean ====
section
/-! DEFINITION. The Z85 functions on sequences, as the rules write them: `encode` and `decode` of spec/30_encoding.md R58, by
the pseudocode of spec/41_encode.md R65, R69 and spec/42_decode.md R77, R81. The engine (Machine/Encode.lean,
Machine/DecodeText.lean) follows the reference step sequences instead; that the two agree is a statement. -/

namespace Sys2Proof.Machine

/-! ## Encoding -/

/-- The five characters of a value: the digit computed first is the last character (R69). -/
def encChunk (b0 b1 b2 b3 : Byte) : List Byte :=
  let v0 := wordOfBytes b0 b1 b2 b3
  let v1 := quotWord v0
  let v2 := quotWord v1
  let v3 := quotWord v2
  let v4 := quotWord v3
  [alook (remDigit v4), alook (remDigit v3), alook (remDigit v2), alook (remDigit v1), alook (remDigit v0)]

/-- The chunks of an input whose length is a multiple of 4, in order (R65, R68). -/
def encChunks : List Byte → List Byte
  | b0 :: b1 :: b2 :: b3 :: rest => encChunk b0 b1 b2 b3 ++ encChunks rest
  | [] => []
  | [_] => []
  | [_, _] => []
  | [_, _, _] => []

/-- `encode(b)` (R65): the length check alone decides whether it fails (R66). -/
def z85Encode (b : List Byte) : Except BlockError (List Byte) :=
  if b.length % 4 ≠ 0 then .error (.invalidLength 4) else .ok (encChunks b)

/-! ## Decoding -/

/-- The result of `dec_chunk` (R81). -/
inductive ChunkResult where
  /-- The chunk's value, modulo 2^32. -/
  | good (w : Word)
  /-- The offset and the code of the first invalid character. -/
  | bad (k : Nat) (c : Byte)
deriving DecidableEq, Repr

/-- The loop of `dec_chunk` over the characters from offset `k` on, `v` so far (R81). -/
def decChars : Nat → Word → List Byte → ChunkResult
  | _, v, [] => .good v
  | k, v, c :: cs =>
    match rlook c with
    | .digit d => decChars (k + 1) (macWord v d) cs
    | .invalidOutOfRange => .bad k c
    | .invalidInRange => .bad k c

/-- `dec_chunk(c0, c1, c2, c3, c4)` (R81). -/
def decChunk (c0 c1 c2 c3 c4 : Byte) : ChunkResult := decChars 0 0 [c0, c1, c2, c3, c4]

/-- The chunks from number `c` on, in ascending order, up to the first invalid character (R77, R80, R85). -/
def decChunks : Nat → List Byte → Except BlockError (List Byte)
  | c, c0 :: c1 :: c2 :: c3 :: c4 :: rest =>
    match decChunk c0 c1 c2 c3 c4 with
    | .bad k ch => .error (.invalidByte (5 * c + k) ch)
    | .good w =>
      match decChunks (c + 1) rest with
      | .error e => .error e
      | .ok out => .ok (bytesOfWord w ++ out)
  | _, [] => .ok []
  | _, [_] => .ok []
  | _, [_, _] => .ok []
  | _, [_, _, _] => .ok []
  | _, [_, _, _, _] => .ok []

/-- `decode(t)` (R77): the length check comes before any character is examined (R78). -/
def z85Decode (t : List Byte) : Except BlockError (List Byte) :=
  if t.length % 5 ≠ 0 then .error (.invalidLength 5) else decChunks 0 t

/-! ## Overflowing chunks -/

/-- The exact value N of five characters, where all five are valid (R50, R87). -/
def chunkValue? (c0 c1 c2 c3 c4 : Byte) : Option Nat :=
  match rlook c0, rlook c1, rlook c2, rlook c3, rlook c4 with
  | .digit d0, .digit d1, .digit d2, .digit d3, .digit d4 => some (digitsValue d0 d1 d2 d3 d4)
  | _, _, _, _, _ => none

/-- The predicate `overflows` of R87: five valid characters whose exact value is 2^32 or more (R56). -/
def overflows (c0 c1 c2 c3 c4 : Byte) : Bool :=
  match chunkValue? c0 c1 c2 c3 c4 with
  | some n => 2 ^ 32 ≤ n
  | none => false

/-- A text chunk is canonical when its characters are valid and its exact value is below 2^32 (R50). -/
def canonical (c0 c1 c2 c3 c4 : Byte) : Bool :=
  match chunkValue? c0 c1 c2 c3 c4 with
  | some n => n < 2 ^ 32
  | none => false

/-- Every chunk of a text is canonical, and the text is made of whole chunks. -/
def canonicalText : List Byte → Bool
  | c0 :: c1 :: c2 :: c3 :: c4 :: rest => canonical c0 c1 c2 c3 c4 && canonicalText rest
  | [] => true
  | [_] => false
  | [_, _] => false
  | [_, _, _] => false
  | [_, _, _, _] => false

end Sys2Proof.Machine
end

