-- ==== Sys2Proof/Safety.lean ====
section
/-! DEFINITION. What a legal turn and a sound state are, in the terms the statements use. -/

namespace Sys2Proof.Machine

/-- The next turn is one the host may take: no write to IBUF or ILEN while STATE is BUSY
(spec/70_reset_and_hazards.md R114). -/
def State.legal (s : State) : Bool :=
  match s.status with
  | .idle => true
  | .done => true
  | .busy =>
    match s.script with
    | .host (.writeIbuf _ _) :: _ => false
    | .host (.writeIlen _) :: _ => false
    | .host (.start _) :: _ => true
    | .host (.read _) :: _ => true
    | .host .reset :: _ => true
    | .engine :: _ => true
    | .wait :: _ => true
    | [] => true

/-- The payload registers agree with ERR (R20, R21, R52): each holds its payload where it applies and 0 elsewhere, and a
reported character is one RLOOK calls invalid (R93). OPL tells which operation raised the error (R92, R93). -/
def State.payloadAgrees (s : State) : Prop :=
  match s.err with
  | .none => s.errDiv = 0 ∧ s.errPos = 0 ∧ s.errChar = 0
  | .invalidLength => s.errDiv = (if s.opl = 0 then 4 else 5) ∧ s.errPos = 0 ∧ s.errChar = 0
  | .invalidByte => s.opl = 1 ∧ s.errDiv = 0 ∧ (rlook s.errChar).isDigit = false

/-- The invariant of one block instance. -/
structure State.Inv (s : State) : Prop where
  /-- IBUF is in canonical form. -/
  ibuf_wf : s.ibuf.wf
  /-- The cells of OBUF that hold a value are exactly those below OLEN, in order (R15). -/
  obuf_cells : s.obuf.map Prod.fst = List.range s.olen
  /-- The result registers read 0 while STATE is IDLE or BUSY (R20, R25, R29). -/
  clear_unless_done : s.status ≠ .done → s.err = .none ∧ s.olen = 0
  /-- A failed operation delivers no output (R97). -/
  no_partial_output : s.err ≠ .none → s.olen = 0
  /-- ERR and its payload agree. -/
  payload : s.payloadAgrees
  /-- The output is whole chunks: five characters each of ENCODE, four bytes each of DECODE (R57, R71, R86). -/
  whole_chunks : if s.opl = 0 then s.olen % 5 = 0 else s.olen % 4 = 0
  /-- What ENCODE delivers is text of the alphabet (R75). -/
  text_of_alphabet : s.status = .done → s.opl = 0 → ∀ c ∈ s.obuf, ∃ d, c.2 = alook d

/-- An action a host can perform on a block whose LEN_W is `lenW` (R14, R17): the cells and the lengths it writes exist. -/
def HostAction.fits (lenW : Nat) : HostAction → Bool
  | .writeIbuf i _ => i < Config.inMax lenW
  | .writeIlen n => n ≤ Config.inMax lenW
  | .start _ => true
  | .read _ => true
  | .reset => true

/-- A turn possible on a block whose LEN_W is `lenW`. -/
def Turn.fits (lenW : Nat) : Turn → Bool
  | .host a => a.fits lenW
  | .engine => true
  | .wait => true

/-- The state is one of a block whose LEN_W is `lenW`: every register holds a number of its width, every cell that holds
a value exists, and so does every cell the host goes on to write (R9, R12). CH is left out: after a reset it holds a free
value, and what an operation leaves in it is a statement of its own. -/
structure State.Fits (lenW : Nat) (s : State) : Prop where
  /-- ILEN has LEN_W bits (R17). -/
  ilen_le : s.ilen ≤ Config.inMax lenW
  /-- IBUF has IN_MAX cells (R14). -/
  ibuf_lt : ∀ c ∈ s.ibuf, c.1 < Config.inMax lenW
  /-- OBUF has OUT_MAX cells (R15). -/
  obuf_lt : ∀ c ∈ s.obuf, c.1 < Config.outMax lenW
  /-- The output fits OBUF (R15). -/
  olen_le : s.olen ≤ Config.outMax lenW
  /-- OLEN has OLEN_W bits (R25). -/
  olen_lt : s.olen < 2 ^ Config.olenW lenW
  /-- ERR_POS has LEN_W bits (R21). -/
  errPos_lt : s.errPos < 2 ^ lenW
  /-- The host's further actions fit too. -/
  script_fits : ∀ t ∈ s.script, t.fits lenW = true

/-- Two states hold the same input: the same ILEN, and the same value in every cell below it (R27). -/
def State.sameInput (s t : State) : Prop := s.ilen = t.ilen ∧ ∀ i < s.ilen, ibufRead s i = ibufRead t i

/-- Two states show the host the same outcome: STATE, the error registers, OLEN and the cells that are part of a result. -/
def State.sameOutcome (s t : State) : Prop :=
  s.status = t.status ∧ s.err = t.err ∧ s.errDiv = t.errDiv ∧ s.errPos = t.errPos ∧ s.errChar = t.errChar ∧
    s.olen = t.olen ∧ ∀ i < s.olen, obufRead s i = obufRead t i

/-- What no operation changes: the input, the command latch, and everything of the world outside (R14, R75, R90). -/
def State.sameOutside (s t : State) : Prop :=
  s.ibuf = t.ibuf ∧ s.ilen = t.ilen ∧ s.opl = t.opl ∧ s.resetNo = t.resetNo ∧ s.obufNo = t.obufNo ∧
    s.script = t.script ∧ s.seen = t.seen

end Sys2Proof.Machine
end

