-- ==== Sys2Proof/Certificates/Slice0/Obligations.lean ====
section
/-! DEFINITION. What is claimed of the machine, for the provers. Each docstring names the rules of spec/ it formalises; a
clause that rests on a choice of the model names its entry in the assumption log. -/

open Sys2Proof Sys2Proof.Machine

/-! ## The command format -/

/-- R46, R47: `op` = 0 is ENCODE and `op` = 1 is DECODE; both values of the one bit are assigned, and each of the two
operations has its value. -/
def Obligations.CommandBitSelectsTheOperation : Prop :=
  decodeOp 0 = .encode ∧ decodeOp 1 = .decode ∧ (∀ op : BitVec 1, op = 0 ∨ op = 1) ∧ ∀ i, decodeOp (encodeOp i) = i

/-- The two command words, written out from R46 as one byte each, decode to their operations, alone and as table words; a
byte with any other bit set is rejected by name (the byte is the model's carrier, log entry 5). -/
def Obligations.CommandWordsDecode : Prop :=
  decode [0b00000000] = .ok (.encode, []) ∧ decode [0b00000001] = .ok (.decode, []) ∧
  decodeTableWord 8 0b0 = some .encode ∧ decodeTableWord 8 0b1 = some .decode ∧
  decode [] = .error .noCommand ∧ ∀ b rest, 2 ≤ b.toNat → decode (b :: rest) = .error (.strayBits b)

/-- Decoding an encoded command gives the command back and leaves the bytes after it; and a list of bytes that decodes
to a command is that command's encoding followed by the rest, so no bit is dropped either way (R46; log entry 5). -/
def Obligations.DecodeAndEncodeAgree : Prop :=
  (∀ i rest, i.wellFormed = true → decode (encode i ++ rest) = .ok (i, rest)) ∧
  ∀ bs i rest, decode bs = .ok (i, rest) → bs = encode i ++ rest

/-! ## The tables -/

/-- R59: ALOOK(d) is ALPHA[d], with R59's corner cases and example; it is injective, and every code is printable ASCII and
no space. -/
def Obligations.AlphabetLookupReadsTheRom : Prop :=
  (∀ d : Digit, alphaRom[d.val]? = some (alook d)) ∧ alook 0 = 0x30 ∧ alook 84 = 0x23 ∧ alook 43 = 0x48 ∧
  (∀ d e, alook d = alook e → d = e) ∧ ∀ d, 0x21 ≤ (alook d).toNat ∧ (alook d).toNat ≤ 0x7D

/-- R60: the range test first, then the cell `c - 0x21` of REV: the sentinel is in-range-invalid, any other value is the
digit. -/
def Obligations.ReverseLookupFollowsItsContract : Prop :=
  ∀ c : Byte,
    (c.toNat < 0x21 ∨ 0x7D < c.toNat → rlook c = .invalidOutOfRange) ∧
    (0x21 ≤ c.toNat ∧ c.toNat ≤ 0x7D →
      ∃ t : Byte, revRom[c.toNat - 0x21]? = some t ∧
        (t = 0xFF → rlook c = .invalidInRange) ∧
        (t ≠ 0xFF → ∃ d : Digit, d.val = t.toNat ∧ rlook c = .digit d))

/-- R61: REV is what the construction makes of ALPHA, 93 cells from offset 0x21, and nothing else. -/
def Obligations.ReverseTableIsTheConstruction : Prop :=
  revRom = buildRev alphaRom ∧ revRom.length = 93

/-- R62 (an inference the spec marks): the two lookups are inverse to each other. -/
def Obligations.LookupsAreInverse : Prop :=
  (∀ (c : Byte) (v : Digit), rlook c = .digit v ↔ alook v = c) ∧ ∀ v, rlook (alook v) = .digit v

/-- R54's classification of the 256 codes: 33 below the table, 8 gaps, 130 above it, 171 in all. -/
def Obligations.InvalidCodesAreThreeGroups : Prop :=
  (∀ c : Byte, rlook c = .invalidInRange ↔
    c ∈ ([0x22, 0x27, 0x2C, 0x3B, 0x5C, 0x5F, 0x60, 0x7C] : List Byte)) ∧
  (∀ c : Byte, rlook c = .invalidOutOfRange ↔ c.toNat ≤ 0x20 ∨ 0x7E ≤ c.toNat) ∧
  ((List.range 256).filter fun n => (rlook (BitVec.ofNat 8 n)).isDigit).length = 85 ∧
  ((List.range 256).filter fun n => !(rlook (BitVec.ofNat 8 n)).isDigit).length = 171

/-! ## Byte order and the arithmetic steps -/

/-- R30: bytes and the chunk value are related big-endian, in both directions. ENCODE's load of chunk CH takes the value of
the four bytes from IBUF[4*CH] on; DECODE's store of V puts v[31:24] to v[7:0] into OBUF[4*CH] to OBUF[4*CH+3]; and the two
relations undo each other. -/
def Obligations.ChunkValuesAreBigEndian : Prop :=
  (∀ s : State,
    (encLoad s).v.toNat =
      (ibufRead s (4 * s.ch)).toNat * 2 ^ 24 + (ibufRead s (4 * s.ch + 1)).toNat * 2 ^ 16 +
        (ibufRead s (4 * s.ch + 2)).toNat * 2 ^ 8 + (ibufRead s (4 * s.ch + 3)).toNat) ∧
  (∀ s : State,
    (decStore [0, 1, 2, 3] s).obuf.read? (4 * s.ch) = some (s.v.extractLsb' 24 8) ∧
    (decStore [0, 1, 2, 3] s).obuf.read? (4 * s.ch + 1) = some (s.v.extractLsb' 16 8) ∧
    (decStore [0, 1, 2, 3] s).obuf.read? (4 * s.ch + 2) = some (s.v.extractLsb' 8 8) ∧
    (decStore [0, 1, 2, 3] s).obuf.read? (4 * s.ch + 3) = some (s.v.extractLsb' 0 8)) ∧
  (∀ b0 b1 b2 b3 : Byte, bytesOfWord (wordOfBytes b0 b1 b2 b3) = [b0, b1, b2, b3]) ∧
  ∀ v : Word, wordOfBytes (byteOfWord v 0) (byteOfWord v 1) (byteOfWord v 2) (byteOfWord v 3) = v

/-- R70: ENC_DIGIT writes V mod 85 to DIG[K] and V div 85 to V; the remainder is a digit, the quotient at most 50529027.
K is the index the step is given, and nothing but DIG[K], V and K changes. -/
def Obligations.DigitStepDividesBy85 : Prop :=
  ∀ (k : Fin 5) (s : State),
    (encDigit k s).dig[k.val].val = s.v.toNat % 85 ∧
    (encDigit k s).v.toNat = s.v.toNat / 85 ∧ (encDigit k s).v.toNat ≤ 50529027 ∧
    (encDigit k s).k = k ∧
    (∀ j : Fin 5, j ≠ k → (encDigit k s).dig[j.val] = s.dig[j.val]) ∧
    { encDigit k s with k := s.k, dig := s.dig, v := s.v } = s

/-- R84: DEC_MAC keeps the low 32 bits of V * 85 + d, formed exactly; the exact value needs 39 bits. Nothing but V
changes: no flag records a lost carry. In the first four steps of a chunk the reduction does nothing, and the fifth exact
value needs 33 bits. -/
def Obligations.AccumulateStepKeepsLow32Bits : Prop :=
  (∀ (d : Digit) (s : State),
    (decMac d s).v.toNat = (s.v.toNat * 85 + d.val) % 2 ^ 32 ∧ s.v.toNat * 85 + d.val < 2 ^ 39 ∧
    { decMac d s with v := s.v } = s) ∧
  ∀ d0 d1 d2 d3 d4 : Digit,
    (macWord 0 d0).toNat = d0.val ∧
    (macWord (macWord 0 d0) d1).toNat = d0.val * 85 + d1.val ∧
    (macWord (macWord (macWord 0 d0) d1) d2).toNat = (d0.val * 85 + d1.val) * 85 + d2.val ∧
    (macWord (macWord (macWord (macWord 0 d0) d1) d2) d3).toNat =
      ((d0.val * 85 + d1.val) * 85 + d2.val) * 85 + d3.val ∧
    (((d0.val * 85 + d1.val) * 85 + d2.val) * 85 + d3.val) * 85 + d4.val < 2 ^ 33

/-! ## One chunk -/

/-- R73 and R74 (inferences the spec marks): the characters of a chunk are those of the positional base-85 digits of its
value, most significant first; the digits give the value back, and the first is at most 82. -/
def Obligations.EncodedDigitsArePositional : Prop :=
  ∀ b0 b1 b2 b3 : Byte,
    ∃ d0 d1 d2 d3 d4 : Digit,
      encChunk b0 b1 b2 b3 = [alook d0, alook d1, alook d2, alook d3, alook d4] ∧
      d0.val = (wordOfBytes b0 b1 b2 b3).toNat / 85 ^ 4 % 85 ∧
      d1.val = (wordOfBytes b0 b1 b2 b3).toNat / 85 ^ 3 % 85 ∧
      d2.val = (wordOfBytes b0 b1 b2 b3).toNat / 85 ^ 2 % 85 ∧
      d3.val = (wordOfBytes b0 b1 b2 b3).toNat / 85 % 85 ∧
      d4.val = (wordOfBytes b0 b1 b2 b3).toNat % 85 ∧
      digitsValue d0 d1 d2 d3 d4 = (wordOfBytes b0 b1 b2 b3).toNat ∧ d0.val ≤ 82

/-- R74 and R56 (inferences the spec marks): enc_chunk is injective, and its image is exactly the canonical chunks; so it
never produces an overflowing one. -/
def Obligations.EncodedChunksAreTheCanonicalOnes : Prop :=
  (∀ b0 b1 b2 b3 a0 a1 a2 a3 : Byte, encChunk b0 b1 b2 b3 = encChunk a0 a1 a2 a3 →
    b0 = a0 ∧ b1 = a1 ∧ b2 = a2 ∧ b3 = a3) ∧
  (∀ c0 c1 c2 c3 c4 : Byte,
    canonical c0 c1 c2 c3 c4 = true ↔ ∃ b0 b1 b2 b3, encChunk b0 b1 b2 b3 = [c0, c1, c2, c3, c4]) ∧
  ∀ b0 b1 b2 b3 c0 c1 c2 c3 c4 : Byte, encChunk b0 b1 b2 b3 = [c0, c1, c2, c3, c4] →
    overflows c0 c1 c2 c3 c4 = false

/-- R81 and R87: five valid characters of exact value N decode to N mod 2^32, whether N overflows or not; otherwise
the result names the first invalid character, its offset and its code. -/
def Obligations.DecodedChunkIsTheValueModulo2Pow32 : Prop :=
  ∀ c0 c1 c2 c3 c4 : Byte,
    (∀ n, chunkValue? c0 c1 c2 c3 c4 = some n →
      ∃ w : Word, decChunk c0 c1 c2 c3 c4 = .good w ∧ w.toNat = n % 2 ^ 32) ∧
    (chunkValue? c0 c1 c2 c3 c4 = none →
      ∃ k c, decChunk c0 c1 c2 c3 c4 = .bad k c ∧ [c0, c1, c2, c3, c4][k]? = some c ∧ (rlook c).isDigit = false ∧
        ∀ j < k, ∀ d, [c0, c1, c2, c3, c4][j]? = some d → (rlook d).isDigit = true)

/-- R88 (an inference the spec marks): the first four accumulate steps of a chunk never wrap; the fifth wraps exactly when
V4 > 50529027, or V4 = 50529027 and d4 >= 1; and a chunk overflows exactly when its digits are lexicographically greater
than 82, 23, 54, 12, 0. -/
def Obligations.OnlyTheFifthAccumulateStepWraps : Prop :=
  ∀ d0 d1 d2 d3 d4 : Digit,
    let v4 := macWord (macWord (macWord (macWord 0 d0) d1) d2) d3
    v4.toNat = ((d0.val * 85 + d1.val) * 85 + d2.val) * 85 + d3.val ∧
    ((macWord v4 d4).toNat ≠ v4.toNat * 85 + d4.val ↔
      50529027 < v4.toNat ∨ v4.toNat = 50529027 ∧ 1 ≤ d4.val) ∧
    (overflows (alook d0) (alook d1) (alook d2) (alook d3) (alook d4) = true ↔
      82 < d0.val ∨ d0.val = 82 ∧ (23 < d1.val ∨ d1.val = 23 ∧ (54 < d2.val ∨ d2.val = 54 ∧
        (12 < d3.val ∨ d3.val = 12 ∧ 0 < d4.val))))

/-- R87's examples: "%nSc1" (N = 2^32), "%nSd0" and "#####" overflow, raise nothing and decode to N mod 2^32; "%nSc0" is
the largest canonical chunk. -/
def Obligations.OverflowingChunksWrapSilently : Prop :=
  overflows 0x25 0x6E 0x53 0x63 0x31 = true ∧ z85Decode [0x25, 0x6E, 0x53, 0x63, 0x31] = .ok [0, 0, 0, 0] ∧
  overflows 0x25 0x6E 0x53 0x64 0x30 = true ∧ z85Decode [0x25, 0x6E, 0x53, 0x64, 0x30] = .ok [0, 0, 0, 0x54] ∧
  overflows 0x23 0x23 0x23 0x23 0x23 = true ∧
  z85Decode [0x23, 0x23, 0x23, 0x23, 0x23] = .ok [0x08, 0x78, 0x0E, 0xC4] ∧
  canonical 0x25 0x6E 0x53 0x63 0x30 = true ∧
  z85Decode [0x25, 0x6E, 0x53, 0x63, 0x30] = .ok [0xFF, 0xFF, 0xFF, 0xFF]

/-! ## The functions on sequences -/

/-- The source document's three known vectors (spec/95_test_vectors.md S1 to S3), in both directions. -/
def Obligations.KnownVectorsHold : Prop :=
  z85Encode [0x86, 0x4F, 0xD2, 0x6F, 0xB5, 0x59, 0xF7, 0x5B] =
    .ok [0x48, 0x65, 0x6C, 0x6C, 0x6F, 0x57, 0x6F, 0x72, 0x6C, 0x64] ∧
  z85Decode [0x48, 0x65, 0x6C, 0x6C, 0x6F, 0x57, 0x6F, 0x72, 0x6C, 0x64] =
    .ok [0x86, 0x4F, 0xD2, 0x6F, 0xB5, 0x59, 0xF7, 0x5B] ∧
  z85Encode [0xAB, 0xCD, 0xEF, 0xAA, 0x55, 0x33, 0x11, 0x00] =
    .ok [0x54, 0x69, 0x48, 0x61, 0x6B, 0x72, 0x77, 0x4C, 0x69, 0x21] ∧
  z85Decode [0x54, 0x69, 0x48, 0x61, 0x6B, 0x72, 0x77, 0x4C, 0x69, 0x21] =
    .ok [0xAB, 0xCD, 0xEF, 0xAA, 0x55, 0x33, 0x11, 0x00] ∧
  z85Encode [0x3E, 0xDC, 0x70, 0xD2, 0xBF, 0xF1, 0x01, 0x1B] =
    .ok [0x6B, 0x68, 0x70, 0x62, 0x39, 0x5A, 0x57, 0x52, 0x73, 0x7A] ∧
  z85Decode [0x6B, 0x68, 0x70, 0x62, 0x39, 0x5A, 0x57, 0x52, 0x73, 0x7A] =
    .ok [0x3E, 0xDC, 0x70, 0xD2, 0xBF, 0xF1, 0x01, 0x1B]

/-- R89(a): for every byte sequence whose length is a multiple of 4, encoding succeeds and decoding gives it back. -/
def Obligations.DecodingInvertsEncoding : Prop :=
  ∀ b : List Byte, b.length % 4 = 0 → ∃ t, z85Encode b = .ok t ∧ z85Decode t = .ok b

/-- R89(b): a text whose chunks are all canonical decodes, and encoding the result gives the text back. -/
def Obligations.EncodingInvertsCanonicalDecoding : Prop :=
  ∀ t : List Byte, canonicalText t = true → ∃ b, z85Decode t = .ok b ∧ z85Encode b = .ok t

/-- R68 and R80: each chunk is transformed on its own. Where the first part is whole chunks, the texts of the parts
follow each other; decoding the second part after a first part that is valid adds its bytes, or its error at a
position counted in the whole input. -/
def Obligations.ChunksAreTransformedIndependently : Prop :=
  (∀ a b : List Byte, a.length % 4 = 0 → encChunks (a ++ b) = encChunks a ++ encChunks b) ∧
  ∀ (c : Nat) (a b out : List Byte), a.length % 5 = 0 → decChunks c a = .ok out →
    decChunks c (a ++ b) = match decChunks (c + a.length / 5) b with
      | .ok more => .ok (out ++ more)
      | .error e => .error e

/-- R75: every symbol ENCODE produces is one of the 85 codes of ALPHA. -/
def Obligations.EncodedTextIsOfTheAlphabet : Prop :=
  ∀ (b : List Byte) (c : Byte), c ∈ encChunks b → ∃ d, c = alook d

/-! ## The operations -/

/-- R65: from every state ENCODE reaches its completion step, and the state there is the one R65 gives for `encode` of
the input IBUF[0..ILEN-1]: on success the text in OBUF, its length in OLEN and no error; on failure InvalidLength(4) and
no output. STATE is DONE in both. -/
def Obligations.EncodeComputesEncode : Prop :=
  ∀ s : State, ∃ t, exec .encode s = .next t ∧ t.status = .done ∧ t.result = z85Encode s.input ∧
    match z85Encode s.input with
    | .ok text =>
      t.olen = text.length ∧ (∀ i < text.length, t.obuf.read? i = text[i]?) ∧
      t.err = .none ∧ t.errDiv = 0 ∧ t.errPos = 0 ∧ t.errChar = 0
    | .error e =>
      e = .invalidLength 4 ∧ t.olen = 0 ∧ t.err = .invalidLength ∧ t.errDiv = 4 ∧ t.errPos = 0 ∧ t.errChar = 0

/-- R77: from every state DECODE reaches a completion step, and the state there is the one R77 gives for `decode` of the
input IBUF[0..ILEN-1]: on success the bytes in OBUF, their number in OLEN and no error; on failure the error with its payload
and no output. STATE is DONE in all three. -/
def Obligations.DecodeComputesDecode : Prop :=
  ∀ s : State, ∃ t, exec .decode s = .next t ∧ t.status = .done ∧ t.result = z85Decode s.input ∧
    match z85Decode s.input with
    | .ok bytes =>
      t.olen = bytes.length ∧ (∀ i < bytes.length, t.obuf.read? i = bytes[i]?) ∧
      t.err = .none ∧ t.errDiv = 0 ∧ t.errPos = 0 ∧ t.errChar = 0
    | .error (.invalidLength d) =>
      d = 5 ∧ t.olen = 0 ∧ t.err = .invalidLength ∧ t.errDiv = 5 ∧ t.errPos = 0 ∧ t.errChar = 0
    | .error (.invalidByte p c) =>
      t.olen = 0 ∧ t.err = .invalidByte ∧ t.errDiv = 0 ∧ t.errPos = p ∧ t.errChar = c

/-- R66: ENCODE fails with InvalidLength(4) if and only if ILEN mod 4 is not 0, before any chunk is read and whatever
IBUF holds: the state is then the error completion of the START state, and otherwise there is no error. -/
def Obligations.EncodeChecksOnlyTheLength : Prop :=
  ∀ s : State, ∃ t, exec .encode s = .next t ∧
    (s.ilen % 4 ≠ 0 → t = raise (.invalidLength 4) s) ∧ (s.ilen % 4 = 0 → t.err = .none)

/-- R78: DECODE fails with InvalidLength(5) if and only if ILEN mod 5 is not 0, before any character is examined and
whatever IBUF holds; otherwise it never raises InvalidLength. -/
def Obligations.DecodeChecksTheLengthFirst : Prop :=
  ∀ s : State, ∃ t, exec .decode s = .next t ∧
    (s.ilen % 5 ≠ 0 → t = raise (.invalidLength 5) s) ∧ (s.ilen % 5 = 0 → t.err ≠ .invalidLength)

/-- R71: OLEN after ENCODE is ILEN / 4 * 5 on success and 0 on failure; for every LEN_W that holds the input it fits OLEN
and OBUF. -/
def Obligations.EncodeOutputLength : Prop :=
  ∀ s : State, ∃ t, exec .encode s = .next t ∧
    (t.err = .none → s.ilen % 4 = 0 ∧ t.olen = s.ilen / 4 * 5) ∧ (t.err ≠ .none → t.olen = 0) ∧
    ∀ lenW, s.ilen ≤ Config.inMax lenW → t.olen ≤ Config.outMax lenW ∧ t.olen < 2 ^ Config.olenW lenW

/-- R86: OLEN after DECODE is ILEN / 5 * 4 on success and 0 on failure. -/
def Obligations.DecodeOutputLength : Prop :=
  ∀ s : State, ∃ t, exec .decode s = .next t ∧
    (t.err = .none → s.ilen % 5 = 0 ∧ t.olen = s.ilen / 5 * 4) ∧ (t.err ≠ .none → t.olen = 0)

/-- R80, R85, R93, R95 and R98: with a whole number of chunks DECODE raises InvalidByte exactly when some character of the
input is invalid, and then reports the smallest index that holds one, and its code. -/
def Obligations.DecodeReportsTheFirstInvalidCharacter : Prop :=
  ∀ s : State, s.ilen % 5 = 0 → ∃ t, exec .decode s = .next t ∧
    (∀ p < s.ilen, (rlook (ibufRead s p)).isDigit = false →
      (∀ j < p, (rlook (ibufRead s j)).isDigit = true) →
      t.err = .invalidByte ∧ t.errPos = p ∧ t.errChar = ibufRead s p ∧ t.errDiv = 0 ∧ t.olen = 0) ∧
    ((∀ j < s.ilen, (rlook (ibufRead s j)).isDigit = true) → t.err = .none)

/-- R98 (an inference the spec marks): errors are precise. InvalidByte names the cell and its value in the unchanged input,
with every cell below it valid; InvalidLength names the divisor that does not divide ILEN. -/
def Obligations.ErrorsArePrecise : Prop :=
  ∀ (i : Instr) (s t : State), exec i s = .next t →
    (t.err = .invalidByte →
      t.errPos < t.ilen ∧ ibufRead t t.errPos = t.errChar ∧ (rlook t.errChar).isDigit = false ∧
      ∀ j < t.errPos, (rlook (ibufRead t j)).isDigit = true) ∧
    (t.err = .invalidLength → t.ilen % t.errDiv.toNat ≠ 0)

/-- R93: InvalidByte is raised by DECODE only, never by ENCODE. -/
def Obligations.EncodeNeverRaisesInvalidByte : Prop :=
  ∀ s : State, ∃ t, exec .encode s = .next t ∧ t.err ≠ .invalidByte

/-- R72 and R82: the engine's loops end by their own test, after ILEN div 4 and ILEN div 5 chunks; the bound that the
model gives each loop cuts neither short. -/
def Obligations.EngineLoopsEndByTheirOwnTest : Prop :=
  (∀ s : State, (encLoop (s.ilen / 4) { s with ch := 0 }).ch = s.ilen / 4) ∧
  (∀ s t : State, decLoop (s.ilen / 5) { s with ch := 0 } = .ok t → t.ch = s.ilen / 5) ∧
  ∀ (s t : State) (e : BlockError), decLoop (s.ilen / 5) { s with ch := 0 } = .error (e, t) → t.ch < s.ilen / 5

/-! ## Frames -/

/-- R68, R75: what ENCODE leaves alone. Every cell of IBUF reads as before, and ILEN, OPL and everything outside the block
are unchanged. The cells of OBUF that hold a value afterwards are those of the text: on success 5*c + k for
each chunk c and each offset k, on failure none (R15). -/
def Obligations.EncodeFrame : Prop :=
  ∀ s t : State, exec .encode s = .next t →
    s.sameOutside t ∧ (∀ i, ibufRead t i = ibufRead s i) ∧
    (t.err = .none → ∀ i, (t.obuf.read? i).isSome = true ↔ ∃ c k, c < s.ilen / 4 ∧ k < 5 ∧ i = 5 * c + k) ∧
    (t.err ≠ .none → ∀ i, t.obuf.read? i = none)

/-- R80, R90: what DECODE leaves alone. Every cell of IBUF reads as before, and ILEN, OPL, DIG and everything outside the
block are unchanged. The cells of OBUF that hold a value afterwards are those of the bytes: on success 4*c + j for each
chunk c and each offset j, on failure none (R15). -/
def Obligations.DecodeFrame : Prop :=
  ∀ s t : State, exec .decode s = .next t →
    s.sameOutside t ∧ t.dig = s.dig ∧ (∀ i, ibufRead t i = ibufRead s i) ∧
    (t.err = .none → ∀ i, (t.obuf.read? i).isSome = true ↔ ∃ c j, c < s.ilen / 5 ∧ j < 4 ∧ i = 4 * c + j) ∧
    (t.err ≠ .none → ∀ i, t.obuf.read? i = none)

/-- R14, R17, R90: only the host's own writes, and reset, change IBUF or ILEN; no turn of the engine and no START or read
does. -/
def Obligations.OnlyTheHostChangesTheInput : Prop :=
  ∀ s t : State, step s = .next t →
    (t.ibuf = s.ibuf ∧ t.ilen = s.ilen) ∨
    (∃ i b rest, s.script = .host (.writeIbuf i b) :: rest ∧ t.ilen = s.ilen ∧ ibufRead t i = b ∧
      ∀ j, j ≠ i → ibufRead t j = ibufRead s j) ∨
    (∃ n rest, s.script = .host (.writeIlen n) :: rest ∧ t.ilen = n ∧ t.ibuf = s.ibuf) ∨
    ∃ rest, s.script = .host .reset :: rest

/-- R27: the outcome of an operation is a function of ILEN and the cells below it. Two states that agree on these, whatever
else they hold, lead to the same STATE, error registers, OLEN and output. -/
def Obligations.OperationsArePure : Prop :=
  ∀ (i : Instr) (s t : State), s.sameInput t →
    ∃ s' t', exec i s = .next s' ∧ exec i t = .next t' ∧ s'.sameOutcome t'

/-! ## Errors and status -/

/-- R96: what `raise` writes, and that nothing else changes. -/
def Obligations.RaiseWritesTheErrorRegisters : Prop :=
  (∀ (d : BitVec 3) (s : State),
    raise (.invalidLength d) s =
      { s with status := .done, err := .invalidLength, errDiv := d, errPos := 0, errChar := 0, olen := 0, obuf := [] }) ∧
  ∀ (p : Nat) (c : Byte) (s : State),
    raise (.invalidByte p c) s =
      { s with status := .done, err := .invalidByte, errDiv := 0, errPos := p, errChar := c, olen := 0, obuf := [] }

/-- R53: the two predicates are functions of ERR alone; at most one is true, and both are false exactly for NONE. -/
def Obligations.ErrorPredicatesClassify : Prop :=
  ∀ e : ErrKind,
    (e.isInvalidLength = true ↔ e.code = 1) ∧ (e.isInvalidByte = true ↔ e.code = 2) ∧
    ¬(e.isInvalidLength = true ∧ e.isInvalidByte = true) ∧
    (e.isInvalidLength = false ∧ e.isInvalidByte = false ↔ e = .none)

/-- R51: the codes of STATE; 3 is never produced. The same of ERR (R52's first sentence). -/
def Obligations.StatusCodes : Prop :=
  (Status.code .idle = 0 ∧ Status.code .busy = 1 ∧ Status.code .done = 2 ∧ ∀ x : Status, x.code ≠ 3) ∧
  ErrKind.code .none = 0 ∧ ErrKind.code .invalidLength = 1 ∧ ErrKind.code .invalidByte = 2 ∧
    ∀ e : ErrKind, e.code ≠ 3

/-- R19: nothing changes STATE but an accepted START (to BUSY), the engine's completion (BUSY to DONE) and reset (to
IDLE). -/
def Obligations.StatusChangesOnlyAsListed : Prop :=
  ∀ s t : State, step s = .next t →
    t.status = s.status ∨
    (∃ op rest, s.script = .host (.start op) :: rest ∧ s.status ≠ .busy ∧ t.status = .busy ∧ t.opl = op) ∨
    (s.status = .busy ∧ t.status = .done ∧
      (s.script = [] ∨ (∃ rest, s.script = .engine :: rest) ∨ ∃ rest, s.script = .wait :: rest)) ∨
    ∃ rest, s.script = .host .reset :: rest ∧ t.status = .idle

/-- R99: while STATE is DONE the outcome stays for any number of turns, until an accepted START or a reset. -/
def Obligations.ResultsHoldUntilTheNextStart : Prop :=
  ∀ s t : State, s.status = .done → step s = .next t →
    (∀ op rest, s.script ≠ .host (.start op) :: rest) → (∀ rest, s.script ≠ .host .reset :: rest) →
    s.sameOutcome t

/-! ## The host's moves -/

/-- R18: in IDLE or DONE a START is accepted in one step, which sets OPL and BUSY and clears the result registers; in BUSY
it is ignored: nothing changes but the draw number of OBUF's unspecified cells (log entry 4) and the turn that is used up.
The cells of OBUF are unspecified from an accepted START on (R15). -/
def Obligations.StartIsAcceptedUnlessBusy : Prop :=
  ∀ (op : BitVec 1) (rest : List Turn) (s : State), s.script = .host (.start op) :: rest →
    (s.status ≠ .busy → step s = .next { s with
      script := rest, opl := op, status := .busy, err := .none, errDiv := 0, errPos := 0, errChar := 0, olen := 0,
      obuf := [], obufNo := s.obufNo + 1 }) ∧
    (s.status = .busy → step s = .next { s with script := rest, obufNo := s.obufNo + 1 })

/-- R14, R17, R29, R37: while STATE is not BUSY, a host write to IBUF changes the one cell and nothing else, and a host
write to ILEN gives it the value and changes nothing else. A host read changes nothing of the block and records the value at
that moment (the counter of unspecified cells goes on while BUSY; the transcript is the model's; log entries 4 and 6): the
code of R51 for STATE and of R52 for ERR, the number in each other register, and the cell of a buffer, which is the value
it holds where it holds one. -/
def Obligations.HostAccessesDoOnlyTheirAccess : Prop :=
  (∀ (i : Nat) (b : Byte) (rest : List Turn) (s : State),
    s.script = .host (.writeIbuf i b) :: rest → s.status ≠ .busy →
    ∃ t, step s = .next t ∧ ibufRead t i = b ∧ (∀ j, j ≠ i → ibufRead t j = ibufRead s j) ∧
      { t with ibuf := s.ibuf, script := s.script } = s ∧ t.script = rest) ∧
  (∀ (n : Nat) (rest : List Turn) (s : State),
    s.script = .host (.writeIlen n) :: rest → s.status ≠ .busy →
    step s = .next { s with ilen := n, script := rest }) ∧
  (∀ (r : HostReg) (rest : List Turn) (s : State), s.script = .host (.read r) :: rest →
    ∃ t, step s = .next t ∧ t.seen = (r, hostValue r t) :: s.seen ∧ t.script = rest ∧
      (s.status ≠ .busy → t.seen = (r, hostValue r s) :: s.seen ∧ { t with seen := s.seen, script := s.script } = s) ∧
      (s.status = .busy → { t with seen := s.seen, script := s.script, obufNo := s.obufNo } = s)) ∧
  ∀ s : State,
    (s.status = .idle → hostValue .state s = 0) ∧ (s.status = .busy → hostValue .state s = 1) ∧
    (s.status = .done → hostValue .state s = 2) ∧
    (s.err = .none → hostValue .err s = 0) ∧ (s.err = .invalidLength → hostValue .err s = 1) ∧
    (s.err = .invalidByte → hostValue .err s = 2) ∧
    hostValue .ilen s = s.ilen ∧ hostValue .errDiv s = s.errDiv.toNat ∧ hostValue .errPos s = s.errPos ∧
    hostValue .errChar s = s.errChar.toNat ∧ hostValue .olen s = s.olen ∧
    (∀ i, hostValue (.ibuf i) s = (ibufRead s i).toNat ∧ ∀ b, s.ibuf.read? i = some b → ibufRead s i = b) ∧
    ∀ i, hostValue (.obuf i) s = (obufRead s i).toNat ∧ ∀ b, s.obuf.read? i = some b → obufRead s i = b

/-- R108: reset gives R28's values and leaves no cell of a buffer holding a value; the working registers are left
unspecified. After it the engine does nothing and a START is accepted at once. The counters of the model's free values
move on (log entries 2 to 4). -/
def Obligations.ResetGivesTheResetState : Prop :=
  ∀ (rest : List Turn) (s : State), s.script = .host .reset :: rest →
    ∃ t, step s = .next t ∧
      t.status = .idle ∧ t.err = .none ∧ t.errDiv = 0 ∧ t.errPos = 0 ∧ t.errChar = 0 ∧ t.olen = 0 ∧ t.ilen = 0 ∧
      (∀ i, t.ibuf.read? i = none ∧ t.obuf.read? i = none) ∧
      t.script = rest ∧ t.seen = s.seen ∧ s.resetNo < t.resetNo ∧ s.obufNo < t.obufNo ∧
      engineTurn t = .next t ∧ ∀ op, hostStart op t = .next (acceptStart op t)

/-- R110: reset while STATE is BUSY aborts the operation. STATE is IDLE and not DONE, the result registers are 0, and
the turns that follow complete nothing until a START is given. -/
def Obligations.ResetAbortsARunningOperation : Prop :=
  ∀ (rest : List Turn) (s : State), s.status = .busy → s.script = .host .reset :: .engine :: rest →
    ∃ t u, step s = .next t ∧ step t = .next u ∧
      t.status = .idle ∧ t.err = .none ∧ t.errDiv = 0 ∧ t.errPos = 0 ∧ t.errChar = 0 ∧ t.olen = 0 ∧
      u = { t with script := rest }

/-- The state right after reset has R28's values. -/
def Obligations.ResetStateHasTheResetValues : Prop :=
  State.reset.status = .idle ∧ State.reset.err = .none ∧ State.reset.errDiv = 0 ∧ State.reset.errPos = 0 ∧
  State.reset.errChar = 0 ∧ State.reset.olen = 0 ∧ State.reset.ilen = 0 ∧
  (∀ i, State.reset.ibuf.read? i = none ∧ State.reset.obuf.read? i = none) ∧ State.reset.script = []

/-! ## Steps and runs -/

/-- A step on the engine's turn runs the decoded operation. While STATE is BUSY and it is the engine's turn, for the
operation that OPL's byte decodes to (R26), step is exec of it at that state with the engine's turn used up (a WAIT stays) and
OBUF's unspecified cells drawn anew (log entry 4). A loaded command is the very next to run (log entry 8). -/
def Obligations.StepRunsTheDecodedOperation : Prop :=
  (∀ (s : State) (i : Instr), decode [s.opl.setWidth 8] = .ok (i, []) → s.status = .busy →
    (s.script = [] → step s = exec i (drawObuf s)) ∧
    (∀ rest, s.script = .engine :: rest → step s = exec i (drawObuf { s with script := rest })) ∧
    ∀ rest, s.script = .wait :: rest → step s = exec i (drawObuf s)) ∧
  ∀ (s : State) (nbits w : Nat) (i : Instr), decodeTableWord nbits w = some i →
    step (s.withFetchWord nbits w) = exec i (drawObuf { acceptStart (encodeOp i) s with script := s.script })

/-- R29, R107: while STATE is IDLE or DONE the engine does nothing. -/
def Obligations.EngineRestsUnlessBusy : Prop :=
  ∀ s : State, s.status ≠ .busy →
    (s.script = [] → step s = .next s) ∧
    ∀ rest, s.script = .engine :: rest → step s = .next { s with script := rest }

/-- R118, with R39, R40: an accepted START and a WAIT end in DONE after three steps, with BUSY seen after the first, and the
outcome read from the registers is that of the operation's function on the input of the moment of START. -/
def Obligations.StartedOperationsComplete : Prop :=
  ∀ (op : BitVec 1) (rest : List Turn) (s : State),
    s.script = .host (.start op) :: .wait :: rest → s.status ≠ .busy →
    ∃ u t, Host.Core.run core 1 s = .next u ∧ u.status = .busy ∧
      Host.Core.run core 3 s = .next t ∧ t.status = .done ∧ t.script = rest ∧
      t.result = (match decodeOp op with
        | .encode => z85Encode s.input
        | .decode => z85Decode s.input)

/-- R67, R79: an empty input succeeds with an empty output in both operations, reads no cell, and still goes through BUSY to
DONE. -/
def Obligations.EmptyInputSucceeds : Prop :=
  ∀ (op : BitVec 1) (rest : List Turn) (s : State),
    s.script = .host (.start op) :: .engine :: rest → s.status ≠ .busy → s.ilen = 0 →
    ∃ u t, step s = .next u ∧ u.status = .busy ∧ step u = .next t ∧ t.status = .done ∧ t.err = .none ∧ t.olen = 0 ∧
      t.ilen = 0 ∧ t.ibuf = s.ibuf

/-- R114 as the model takes it (log entry 9): the machine stops exactly on a host write to IBUF or ILEN while BUSY, with
that fault; on every other turn, in every state, it goes on. No command is refused. -/
def Obligations.StepStopsOnlyOnForbiddenWrites : Prop :=
  (∀ s : State, s.legal = true → ∃ t, step s = .next t) ∧
  (∀ s : State, s.legal = false → ∃ f, step s = .fault f) ∧
  (∀ (i : Nat) (b : Byte) (rest : List Turn) (s : State), s.status = .busy →
    s.script = .host (.writeIbuf i b) :: rest → step s = .fault .ibufWriteWhileBusy) ∧
  ∀ (n : Nat) (rest : List Turn) (s : State), s.status = .busy →
    s.script = .host (.writeIlen n) :: rest → step s = .fault .ilenWriteWhileBusy

/-- R89(a) on the machine: after a successful ENCODE, a DECODE whose input is the output of it succeeds and delivers the
first input. -/
def Obligations.MachineRoundTrip : Prop :=
  ∀ s : State, s.ilen % 4 = 0 →
    ∃ t, exec .encode s = .next t ∧ t.err = .none ∧
      ∀ u : State, u.ilen = t.olen → (∀ i < t.olen, ibufRead u i = obufRead t i) →
        ∃ w, exec .decode u = .next w ∧ w.err = .none ∧ w.output = s.input

/-! ## Invariants -/

/-- Every step keeps the invariant of the block: IBUF in canonical form; OBUF holding exactly the cells below OLEN (R15);
result registers 0 unless DONE (R20, R25); no output with an error (R97); payloads that agree with ERR (R21, R52, R93); whole
chunks (R57); text of the alphabet after ENCODE (R75). -/
def Obligations.StepKeepsTheInvariant : Prop :=
  ∀ s t : State, s.Inv → step s = .next t → t.Inv

/-- The state right after reset meets the invariant. -/
def Obligations.ResetMeetsTheInvariant : Prop := State.reset.Inv

/-- For every LEN_W: a step of a block whose state, and whose host's further writes, fit LEN_W leaves a state that fits it.
So ILEN, ERR_POS and OLEN keep within their widths, and the output fits OBUF (R15, R17, R21, R25). -/
def Obligations.StepKeepsWithinLenW : Prop :=
  ∀ (lenW : Nat) (s t : State), s.Fits lenW → step s = .next t → t.Fits lenW

/-- The state right after reset fits every LEN_W. -/
def Obligations.ResetFitsEveryLenW : Prop := ∀ lenW : Nat, State.reset.Fits lenW
end

