-- ==== Sys2Proof/Laws/State.lean ====
section
/-! SUPPORT. What each shared update does to each field of State: one lemma a field, so that no proof unfolds an update. -/

namespace Sys2Proof.Machine

/-! ## An accepted START (R18). -/

@[simp] theorem acceptStart_ibuf (op : BitVec 1) (s : State) : (acceptStart op s).ibuf = s.ibuf := rfl
@[simp] theorem acceptStart_obuf (op : BitVec 1) (s : State) : (acceptStart op s).obuf = [] := rfl
@[simp] theorem acceptStart_ilen (op : BitVec 1) (s : State) : (acceptStart op s).ilen = s.ilen := rfl
@[simp] theorem acceptStart_status (op : BitVec 1) (s : State) : (acceptStart op s).status = .busy := rfl
@[simp] theorem acceptStart_err (op : BitVec 1) (s : State) : (acceptStart op s).err = .none := rfl
@[simp] theorem acceptStart_errDiv (op : BitVec 1) (s : State) : (acceptStart op s).errDiv = 0 := rfl
@[simp] theorem acceptStart_errPos (op : BitVec 1) (s : State) : (acceptStart op s).errPos = 0 := rfl
@[simp] theorem acceptStart_errChar (op : BitVec 1) (s : State) : (acceptStart op s).errChar = 0 := rfl
@[simp] theorem acceptStart_olen (op : BitVec 1) (s : State) : (acceptStart op s).olen = 0 := rfl
@[simp] theorem acceptStart_dig (op : BitVec 1) (s : State) : (acceptStart op s).dig = s.dig := rfl
@[simp] theorem acceptStart_v (op : BitVec 1) (s : State) : (acceptStart op s).v = s.v := rfl
@[simp] theorem acceptStart_ch (op : BitVec 1) (s : State) : (acceptStart op s).ch = s.ch := rfl
@[simp] theorem acceptStart_k (op : BitVec 1) (s : State) : (acceptStart op s).k = s.k := rfl
@[simp] theorem acceptStart_opl (op : BitVec 1) (s : State) : (acceptStart op s).opl = op := rfl
@[simp] theorem acceptStart_resetNo (op : BitVec 1) (s : State) : (acceptStart op s).resetNo = s.resetNo := rfl
@[simp] theorem acceptStart_obufNo (op : BitVec 1) (s : State) : (acceptStart op s).obufNo = s.obufNo + 1 := rfl
@[simp] theorem acceptStart_script (op : BitVec 1) (s : State) : (acceptStart op s).script = s.script := rfl
@[simp] theorem acceptStart_seen (op : BitVec 1) (s : State) : (acceptStart op s).seen = s.seen := rfl

/-! ## The completion step of a success (R36). -/

@[simp] theorem complete_ibuf (n : Nat) (s : State) : (complete n s).ibuf = s.ibuf := rfl
@[simp] theorem complete_obuf (n : Nat) (s : State) : (complete n s).obuf = s.obuf.below n := rfl
@[simp] theorem complete_ilen (n : Nat) (s : State) : (complete n s).ilen = s.ilen := rfl
@[simp] theorem complete_status (n : Nat) (s : State) : (complete n s).status = .done := rfl
@[simp] theorem complete_err (n : Nat) (s : State) : (complete n s).err = .none := rfl
@[simp] theorem complete_errDiv (n : Nat) (s : State) : (complete n s).errDiv = 0 := rfl
@[simp] theorem complete_errPos (n : Nat) (s : State) : (complete n s).errPos = 0 := rfl
@[simp] theorem complete_errChar (n : Nat) (s : State) : (complete n s).errChar = 0 := rfl
@[simp] theorem complete_olen (n : Nat) (s : State) : (complete n s).olen = n := rfl
@[simp] theorem complete_dig (n : Nat) (s : State) : (complete n s).dig = s.dig := rfl
@[simp] theorem complete_v (n : Nat) (s : State) : (complete n s).v = s.v := rfl
@[simp] theorem complete_ch (n : Nat) (s : State) : (complete n s).ch = s.ch := rfl
@[simp] theorem complete_k (n : Nat) (s : State) : (complete n s).k = s.k := rfl
@[simp] theorem complete_opl (n : Nat) (s : State) : (complete n s).opl = s.opl := rfl
@[simp] theorem complete_resetNo (n : Nat) (s : State) : (complete n s).resetNo = s.resetNo := rfl
@[simp] theorem complete_obufNo (n : Nat) (s : State) : (complete n s).obufNo = s.obufNo := rfl
@[simp] theorem complete_script (n : Nat) (s : State) : (complete n s).script = s.script := rfl
@[simp] theorem complete_seen (n : Nat) (s : State) : (complete n s).seen = s.seen := rfl

/-! ## The completion step with InvalidLength (R96). -/

@[simp] theorem raise_length_ibuf (d : BitVec 3) (s : State) : (raise (.invalidLength d) s).ibuf = s.ibuf := rfl
@[simp] theorem raise_length_obuf (d : BitVec 3) (s : State) : (raise (.invalidLength d) s).obuf = [] := rfl
@[simp] theorem raise_length_ilen (d : BitVec 3) (s : State) : (raise (.invalidLength d) s).ilen = s.ilen := rfl
@[simp] theorem raise_length_status (d : BitVec 3) (s : State) : (raise (.invalidLength d) s).status = .done := rfl
@[simp] theorem raise_length_err (d : BitVec 3) (s : State) : (raise (.invalidLength d) s).err = .invalidLength := rfl
@[simp] theorem raise_length_errDiv (d : BitVec 3) (s : State) : (raise (.invalidLength d) s).errDiv = d := rfl
@[simp] theorem raise_length_errPos (d : BitVec 3) (s : State) : (raise (.invalidLength d) s).errPos = 0 := rfl
@[simp] theorem raise_length_errChar (d : BitVec 3) (s : State) : (raise (.invalidLength d) s).errChar = 0 := rfl
@[simp] theorem raise_length_olen (d : BitVec 3) (s : State) : (raise (.invalidLength d) s).olen = 0 := rfl
@[simp] theorem raise_length_dig (d : BitVec 3) (s : State) : (raise (.invalidLength d) s).dig = s.dig := rfl
@[simp] theorem raise_length_v (d : BitVec 3) (s : State) : (raise (.invalidLength d) s).v = s.v := rfl
@[simp] theorem raise_length_ch (d : BitVec 3) (s : State) : (raise (.invalidLength d) s).ch = s.ch := rfl
@[simp] theorem raise_length_k (d : BitVec 3) (s : State) : (raise (.invalidLength d) s).k = s.k := rfl
@[simp] theorem raise_length_opl (d : BitVec 3) (s : State) : (raise (.invalidLength d) s).opl = s.opl := rfl
@[simp] theorem raise_length_resetNo (d : BitVec 3) (s : State) : (raise (.invalidLength d) s).resetNo = s.resetNo := rfl
@[simp] theorem raise_length_obufNo (d : BitVec 3) (s : State) : (raise (.invalidLength d) s).obufNo = s.obufNo := rfl
@[simp] theorem raise_length_script (d : BitVec 3) (s : State) : (raise (.invalidLength d) s).script = s.script := rfl
@[simp] theorem raise_length_seen (d : BitVec 3) (s : State) : (raise (.invalidLength d) s).seen = s.seen := rfl

/-! ## The completion step with InvalidByte (R96). -/

@[simp] theorem raise_byte_ibuf (p : Nat) (c : Byte) (s : State) : (raise (.invalidByte p c) s).ibuf = s.ibuf := rfl
@[simp] theorem raise_byte_obuf (p : Nat) (c : Byte) (s : State) : (raise (.invalidByte p c) s).obuf = [] := rfl
@[simp] theorem raise_byte_ilen (p : Nat) (c : Byte) (s : State) : (raise (.invalidByte p c) s).ilen = s.ilen := rfl
@[simp] theorem raise_byte_status (p : Nat) (c : Byte) (s : State) : (raise (.invalidByte p c) s).status = .done := rfl
@[simp] theorem raise_byte_err (p : Nat) (c : Byte) (s : State) : (raise (.invalidByte p c) s).err = .invalidByte := rfl
@[simp] theorem raise_byte_errDiv (p : Nat) (c : Byte) (s : State) : (raise (.invalidByte p c) s).errDiv = 0 := rfl
@[simp] theorem raise_byte_errPos (p : Nat) (c : Byte) (s : State) : (raise (.invalidByte p c) s).errPos = p := rfl
@[simp] theorem raise_byte_errChar (p : Nat) (c : Byte) (s : State) : (raise (.invalidByte p c) s).errChar = c := rfl
@[simp] theorem raise_byte_olen (p : Nat) (c : Byte) (s : State) : (raise (.invalidByte p c) s).olen = 0 := rfl
@[simp] theorem raise_byte_dig (p : Nat) (c : Byte) (s : State) : (raise (.invalidByte p c) s).dig = s.dig := rfl
@[simp] theorem raise_byte_v (p : Nat) (c : Byte) (s : State) : (raise (.invalidByte p c) s).v = s.v := rfl
@[simp] theorem raise_byte_ch (p : Nat) (c : Byte) (s : State) : (raise (.invalidByte p c) s).ch = s.ch := rfl
@[simp] theorem raise_byte_k (p : Nat) (c : Byte) (s : State) : (raise (.invalidByte p c) s).k = s.k := rfl
@[simp] theorem raise_byte_opl (p : Nat) (c : Byte) (s : State) : (raise (.invalidByte p c) s).opl = s.opl := rfl
@[simp] theorem raise_byte_resetNo (p : Nat) (c : Byte) (s : State) : (raise (.invalidByte p c) s).resetNo = s.resetNo := rfl
@[simp] theorem raise_byte_obufNo (p : Nat) (c : Byte) (s : State) : (raise (.invalidByte p c) s).obufNo = s.obufNo := rfl
@[simp] theorem raise_byte_script (p : Nat) (c : Byte) (s : State) : (raise (.invalidByte p c) s).script = s.script := rfl
@[simp] theorem raise_byte_seen (p : Nat) (c : Byte) (s : State) : (raise (.invalidByte p c) s).seen = s.seen := rfl

/-! ## What every error completion does alike (R96). -/

@[simp] theorem raise_ibuf (e : BlockError) (s : State) : (raise e s).ibuf = s.ibuf := by cases e <;> rfl
@[simp] theorem raise_obuf (e : BlockError) (s : State) : (raise e s).obuf = [] := by cases e <;> rfl
@[simp] theorem raise_ilen (e : BlockError) (s : State) : (raise e s).ilen = s.ilen := by cases e <;> rfl
@[simp] theorem raise_status (e : BlockError) (s : State) : (raise e s).status = .done := by cases e <;> rfl
@[simp] theorem raise_olen (e : BlockError) (s : State) : (raise e s).olen = 0 := by cases e <;> rfl
@[simp] theorem raise_dig (e : BlockError) (s : State) : (raise e s).dig = s.dig := by cases e <;> rfl
@[simp] theorem raise_v (e : BlockError) (s : State) : (raise e s).v = s.v := by cases e <;> rfl
@[simp] theorem raise_ch (e : BlockError) (s : State) : (raise e s).ch = s.ch := by cases e <;> rfl
@[simp] theorem raise_k (e : BlockError) (s : State) : (raise e s).k = s.k := by cases e <;> rfl
@[simp] theorem raise_opl (e : BlockError) (s : State) : (raise e s).opl = s.opl := by cases e <;> rfl
@[simp] theorem raise_resetNo (e : BlockError) (s : State) : (raise e s).resetNo = s.resetNo := by cases e <;> rfl
@[simp] theorem raise_obufNo (e : BlockError) (s : State) : (raise e s).obufNo = s.obufNo := by cases e <;> rfl
@[simp] theorem raise_script (e : BlockError) (s : State) : (raise e s).script = s.script := by cases e <;> rfl
@[simp] theorem raise_seen (e : BlockError) (s : State) : (raise e s).seen = s.seen := by cases e <;> rfl

/-! ## A turn that begins BUSY draws OBUF's unspecified cells anew (log entry 4). -/

@[simp] theorem drawObuf_ibuf (s : State) : (drawObuf s).ibuf = s.ibuf := by unfold drawObuf; split <;> rfl
@[simp] theorem drawObuf_obuf (s : State) : (drawObuf s).obuf = s.obuf := by unfold drawObuf; split <;> rfl
@[simp] theorem drawObuf_ilen (s : State) : (drawObuf s).ilen = s.ilen := by unfold drawObuf; split <;> rfl
@[simp] theorem drawObuf_status (s : State) : (drawObuf s).status = s.status := by unfold drawObuf; split <;> rfl
@[simp] theorem drawObuf_err (s : State) : (drawObuf s).err = s.err := by unfold drawObuf; split <;> rfl
@[simp] theorem drawObuf_errDiv (s : State) : (drawObuf s).errDiv = s.errDiv := by unfold drawObuf; split <;> rfl
@[simp] theorem drawObuf_errPos (s : State) : (drawObuf s).errPos = s.errPos := by unfold drawObuf; split <;> rfl
@[simp] theorem drawObuf_errChar (s : State) : (drawObuf s).errChar = s.errChar := by unfold drawObuf; split <;> rfl
@[simp] theorem drawObuf_olen (s : State) : (drawObuf s).olen = s.olen := by unfold drawObuf; split <;> rfl
@[simp] theorem drawObuf_dig (s : State) : (drawObuf s).dig = s.dig := by unfold drawObuf; split <;> rfl
@[simp] theorem drawObuf_v (s : State) : (drawObuf s).v = s.v := by unfold drawObuf; split <;> rfl
@[simp] theorem drawObuf_ch (s : State) : (drawObuf s).ch = s.ch := by unfold drawObuf; split <;> rfl
@[simp] theorem drawObuf_k (s : State) : (drawObuf s).k = s.k := by unfold drawObuf; split <;> rfl
@[simp] theorem drawObuf_opl (s : State) : (drawObuf s).opl = s.opl := by unfold drawObuf; split <;> rfl
@[simp] theorem drawObuf_resetNo (s : State) : (drawObuf s).resetNo = s.resetNo := by unfold drawObuf; split <;> rfl
@[simp] theorem drawObuf_script (s : State) : (drawObuf s).script = s.script := by unfold drawObuf; split <;> rfl
@[simp] theorem drawObuf_seen (s : State) : (drawObuf s).seen = s.seen := by unfold drawObuf; split <;> rfl

/-! ## E4 (R72). -/

@[simp] theorem encLoad_ibuf (s : State) : (encLoad s).ibuf = s.ibuf := rfl
@[simp] theorem encLoad_obuf (s : State) : (encLoad s).obuf = s.obuf := rfl
@[simp] theorem encLoad_ilen (s : State) : (encLoad s).ilen = s.ilen := rfl
@[simp] theorem encLoad_status (s : State) : (encLoad s).status = s.status := rfl
@[simp] theorem encLoad_err (s : State) : (encLoad s).err = s.err := rfl
@[simp] theorem encLoad_errDiv (s : State) : (encLoad s).errDiv = s.errDiv := rfl
@[simp] theorem encLoad_errPos (s : State) : (encLoad s).errPos = s.errPos := rfl
@[simp] theorem encLoad_errChar (s : State) : (encLoad s).errChar = s.errChar := rfl
@[simp] theorem encLoad_olen (s : State) : (encLoad s).olen = s.olen := rfl
@[simp] theorem encLoad_dig (s : State) : (encLoad s).dig = s.dig := rfl
@[simp] theorem encLoad_v (s : State) : (encLoad s).v = wordOfBytes (ibufRead s (4 * s.ch)) (ibufRead s (4 * s.ch + 1)) (ibufRead s (4 * s.ch + 2))
      (ibufRead s (4 * s.ch + 3)) := rfl
@[simp] theorem encLoad_ch (s : State) : (encLoad s).ch = s.ch := rfl
@[simp] theorem encLoad_k (s : State) : (encLoad s).k = s.k := rfl
@[simp] theorem encLoad_opl (s : State) : (encLoad s).opl = s.opl := rfl
@[simp] theorem encLoad_resetNo (s : State) : (encLoad s).resetNo = s.resetNo := rfl
@[simp] theorem encLoad_obufNo (s : State) : (encLoad s).obufNo = s.obufNo := rfl
@[simp] theorem encLoad_script (s : State) : (encLoad s).script = s.script := rfl
@[simp] theorem encLoad_seen (s : State) : (encLoad s).seen = s.seen := rfl

/-! ## ENC_DIGIT (R70). -/

@[simp] theorem encDigit_ibuf (j : Fin 5) (s : State) : (encDigit j s).ibuf = s.ibuf := rfl
@[simp] theorem encDigit_obuf (j : Fin 5) (s : State) : (encDigit j s).obuf = s.obuf := rfl
@[simp] theorem encDigit_ilen (j : Fin 5) (s : State) : (encDigit j s).ilen = s.ilen := rfl
@[simp] theorem encDigit_status (j : Fin 5) (s : State) : (encDigit j s).status = s.status := rfl
@[simp] theorem encDigit_err (j : Fin 5) (s : State) : (encDigit j s).err = s.err := rfl
@[simp] theorem encDigit_errDiv (j : Fin 5) (s : State) : (encDigit j s).errDiv = s.errDiv := rfl
@[simp] theorem encDigit_errPos (j : Fin 5) (s : State) : (encDigit j s).errPos = s.errPos := rfl
@[simp] theorem encDigit_errChar (j : Fin 5) (s : State) : (encDigit j s).errChar = s.errChar := rfl
@[simp] theorem encDigit_olen (j : Fin 5) (s : State) : (encDigit j s).olen = s.olen := rfl
@[simp] theorem encDigit_dig (j : Fin 5) (s : State) : (encDigit j s).dig = s.dig.set j.val (remDigit s.v) := rfl
@[simp] theorem encDigit_v (j : Fin 5) (s : State) : (encDigit j s).v = quotWord s.v := rfl
@[simp] theorem encDigit_ch (j : Fin 5) (s : State) : (encDigit j s).ch = s.ch := rfl
@[simp] theorem encDigit_k (j : Fin 5) (s : State) : (encDigit j s).k = j := rfl
@[simp] theorem encDigit_opl (j : Fin 5) (s : State) : (encDigit j s).opl = s.opl := rfl
@[simp] theorem encDigit_resetNo (j : Fin 5) (s : State) : (encDigit j s).resetNo = s.resetNo := rfl
@[simp] theorem encDigit_obufNo (j : Fin 5) (s : State) : (encDigit j s).obufNo = s.obufNo := rfl
@[simp] theorem encDigit_script (j : Fin 5) (s : State) : (encDigit j s).script = s.script := rfl
@[simp] theorem encDigit_seen (j : Fin 5) (s : State) : (encDigit j s).seen = s.seen := rfl

/-! ## One store of E6 (R72). -/

@[simp] theorem encStoreOne_ibuf (s : State) (j : Fin 5) : (encStoreOne s j).ibuf = s.ibuf := rfl
@[simp] theorem encStoreOne_obuf (s : State) (j : Fin 5) : (encStoreOne s j).obuf = s.obuf.write (5 * s.ch + j.val) (alook s.dig[j.val]) := rfl
@[simp] theorem encStoreOne_ilen (s : State) (j : Fin 5) : (encStoreOne s j).ilen = s.ilen := rfl
@[simp] theorem encStoreOne_status (s : State) (j : Fin 5) : (encStoreOne s j).status = s.status := rfl
@[simp] theorem encStoreOne_err (s : State) (j : Fin 5) : (encStoreOne s j).err = s.err := rfl
@[simp] theorem encStoreOne_errDiv (s : State) (j : Fin 5) : (encStoreOne s j).errDiv = s.errDiv := rfl
@[simp] theorem encStoreOne_errPos (s : State) (j : Fin 5) : (encStoreOne s j).errPos = s.errPos := rfl
@[simp] theorem encStoreOne_errChar (s : State) (j : Fin 5) : (encStoreOne s j).errChar = s.errChar := rfl
@[simp] theorem encStoreOne_olen (s : State) (j : Fin 5) : (encStoreOne s j).olen = s.olen := rfl
@[simp] theorem encStoreOne_dig (s : State) (j : Fin 5) : (encStoreOne s j).dig = s.dig := rfl
@[simp] theorem encStoreOne_v (s : State) (j : Fin 5) : (encStoreOne s j).v = s.v := rfl
@[simp] theorem encStoreOne_ch (s : State) (j : Fin 5) : (encStoreOne s j).ch = s.ch := rfl
@[simp] theorem encStoreOne_k (s : State) (j : Fin 5) : (encStoreOne s j).k = s.k := rfl
@[simp] theorem encStoreOne_opl (s : State) (j : Fin 5) : (encStoreOne s j).opl = s.opl := rfl
@[simp] theorem encStoreOne_resetNo (s : State) (j : Fin 5) : (encStoreOne s j).resetNo = s.resetNo := rfl
@[simp] theorem encStoreOne_obufNo (s : State) (j : Fin 5) : (encStoreOne s j).obufNo = s.obufNo := rfl
@[simp] theorem encStoreOne_script (s : State) (j : Fin 5) : (encStoreOne s j).script = s.script := rfl
@[simp] theorem encStoreOne_seen (s : State) (j : Fin 5) : (encStoreOne s j).seen = s.seen := rfl

/-! ## E7 and D7. -/

@[simp] theorem nextChunk_ibuf (s : State) : (nextChunk s).ibuf = s.ibuf := rfl
@[simp] theorem nextChunk_obuf (s : State) : (nextChunk s).obuf = s.obuf := rfl
@[simp] theorem nextChunk_ilen (s : State) : (nextChunk s).ilen = s.ilen := rfl
@[simp] theorem nextChunk_status (s : State) : (nextChunk s).status = s.status := rfl
@[simp] theorem nextChunk_err (s : State) : (nextChunk s).err = s.err := rfl
@[simp] theorem nextChunk_errDiv (s : State) : (nextChunk s).errDiv = s.errDiv := rfl
@[simp] theorem nextChunk_errPos (s : State) : (nextChunk s).errPos = s.errPos := rfl
@[simp] theorem nextChunk_errChar (s : State) : (nextChunk s).errChar = s.errChar := rfl
@[simp] theorem nextChunk_olen (s : State) : (nextChunk s).olen = s.olen := rfl
@[simp] theorem nextChunk_dig (s : State) : (nextChunk s).dig = s.dig := rfl
@[simp] theorem nextChunk_v (s : State) : (nextChunk s).v = s.v := rfl
@[simp] theorem nextChunk_ch (s : State) : (nextChunk s).ch = s.ch + 1 := rfl
@[simp] theorem nextChunk_k (s : State) : (nextChunk s).k = s.k := rfl
@[simp] theorem nextChunk_opl (s : State) : (nextChunk s).opl = s.opl := rfl
@[simp] theorem nextChunk_resetNo (s : State) : (nextChunk s).resetNo = s.resetNo := rfl
@[simp] theorem nextChunk_obufNo (s : State) : (nextChunk s).obufNo = s.obufNo := rfl
@[simp] theorem nextChunk_script (s : State) : (nextChunk s).script = s.script := rfl
@[simp] theorem nextChunk_seen (s : State) : (nextChunk s).seen = s.seen := rfl

/-! ## D4 (R82). -/

@[simp] theorem decClear_ibuf (s : State) : (decClear s).ibuf = s.ibuf := rfl
@[simp] theorem decClear_obuf (s : State) : (decClear s).obuf = s.obuf := rfl
@[simp] theorem decClear_ilen (s : State) : (decClear s).ilen = s.ilen := rfl
@[simp] theorem decClear_status (s : State) : (decClear s).status = s.status := rfl
@[simp] theorem decClear_err (s : State) : (decClear s).err = s.err := rfl
@[simp] theorem decClear_errDiv (s : State) : (decClear s).errDiv = s.errDiv := rfl
@[simp] theorem decClear_errPos (s : State) : (decClear s).errPos = s.errPos := rfl
@[simp] theorem decClear_errChar (s : State) : (decClear s).errChar = s.errChar := rfl
@[simp] theorem decClear_olen (s : State) : (decClear s).olen = s.olen := rfl
@[simp] theorem decClear_dig (s : State) : (decClear s).dig = s.dig := rfl
@[simp] theorem decClear_v (s : State) : (decClear s).v = 0 := rfl
@[simp] theorem decClear_ch (s : State) : (decClear s).ch = s.ch := rfl
@[simp] theorem decClear_k (s : State) : (decClear s).k = s.k := rfl
@[simp] theorem decClear_opl (s : State) : (decClear s).opl = s.opl := rfl
@[simp] theorem decClear_resetNo (s : State) : (decClear s).resetNo = s.resetNo := rfl
@[simp] theorem decClear_obufNo (s : State) : (decClear s).obufNo = s.obufNo := rfl
@[simp] theorem decClear_script (s : State) : (decClear s).script = s.script := rfl
@[simp] theorem decClear_seen (s : State) : (decClear s).seen = s.seen := rfl

/-! ## DEC_MAC (R84). -/

@[simp] theorem decMac_ibuf (d : Digit) (s : State) : (decMac d s).ibuf = s.ibuf := rfl
@[simp] theorem decMac_obuf (d : Digit) (s : State) : (decMac d s).obuf = s.obuf := rfl
@[simp] theorem decMac_ilen (d : Digit) (s : State) : (decMac d s).ilen = s.ilen := rfl
@[simp] theorem decMac_status (d : Digit) (s : State) : (decMac d s).status = s.status := rfl
@[simp] theorem decMac_err (d : Digit) (s : State) : (decMac d s).err = s.err := rfl
@[simp] theorem decMac_errDiv (d : Digit) (s : State) : (decMac d s).errDiv = s.errDiv := rfl
@[simp] theorem decMac_errPos (d : Digit) (s : State) : (decMac d s).errPos = s.errPos := rfl
@[simp] theorem decMac_errChar (d : Digit) (s : State) : (decMac d s).errChar = s.errChar := rfl
@[simp] theorem decMac_olen (d : Digit) (s : State) : (decMac d s).olen = s.olen := rfl
@[simp] theorem decMac_dig (d : Digit) (s : State) : (decMac d s).dig = s.dig := rfl
@[simp] theorem decMac_v (d : Digit) (s : State) : (decMac d s).v = macWord s.v d := rfl
@[simp] theorem decMac_ch (d : Digit) (s : State) : (decMac d s).ch = s.ch := rfl
@[simp] theorem decMac_k (d : Digit) (s : State) : (decMac d s).k = s.k := rfl
@[simp] theorem decMac_opl (d : Digit) (s : State) : (decMac d s).opl = s.opl := rfl
@[simp] theorem decMac_resetNo (d : Digit) (s : State) : (decMac d s).resetNo = s.resetNo := rfl
@[simp] theorem decMac_obufNo (d : Digit) (s : State) : (decMac d s).obufNo = s.obufNo := rfl
@[simp] theorem decMac_script (d : Digit) (s : State) : (decMac d s).script = s.script := rfl
@[simp] theorem decMac_seen (d : Digit) (s : State) : (decMac d s).seen = s.seen := rfl

/-! ## One store of D6 (R82). -/

@[simp] theorem decStoreOne_ibuf (s : State) (j : Fin 4) : (decStoreOne s j).ibuf = s.ibuf := rfl
@[simp] theorem decStoreOne_obuf (s : State) (j : Fin 4) : (decStoreOne s j).obuf = s.obuf.write (4 * s.ch + j.val) (byteOfWord s.v j) := rfl
@[simp] theorem decStoreOne_ilen (s : State) (j : Fin 4) : (decStoreOne s j).ilen = s.ilen := rfl
@[simp] theorem decStoreOne_status (s : State) (j : Fin 4) : (decStoreOne s j).status = s.status := rfl
@[simp] theorem decStoreOne_err (s : State) (j : Fin 4) : (decStoreOne s j).err = s.err := rfl
@[simp] theorem decStoreOne_errDiv (s : State) (j : Fin 4) : (decStoreOne s j).errDiv = s.errDiv := rfl
@[simp] theorem decStoreOne_errPos (s : State) (j : Fin 4) : (decStoreOne s j).errPos = s.errPos := rfl
@[simp] theorem decStoreOne_errChar (s : State) (j : Fin 4) : (decStoreOne s j).errChar = s.errChar := rfl
@[simp] theorem decStoreOne_olen (s : State) (j : Fin 4) : (decStoreOne s j).olen = s.olen := rfl
@[simp] theorem decStoreOne_dig (s : State) (j : Fin 4) : (decStoreOne s j).dig = s.dig := rfl
@[simp] theorem decStoreOne_v (s : State) (j : Fin 4) : (decStoreOne s j).v = s.v := rfl
@[simp] theorem decStoreOne_ch (s : State) (j : Fin 4) : (decStoreOne s j).ch = s.ch := rfl
@[simp] theorem decStoreOne_k (s : State) (j : Fin 4) : (decStoreOne s j).k = s.k := rfl
@[simp] theorem decStoreOne_opl (s : State) (j : Fin 4) : (decStoreOne s j).opl = s.opl := rfl
@[simp] theorem decStoreOne_resetNo (s : State) (j : Fin 4) : (decStoreOne s j).resetNo = s.resetNo := rfl
@[simp] theorem decStoreOne_obufNo (s : State) (j : Fin 4) : (decStoreOne s j).obufNo = s.obufNo := rfl
@[simp] theorem decStoreOne_script (s : State) (j : Fin 4) : (decStoreOne s j).script = s.script := rfl
@[simp] theorem decStoreOne_seen (s : State) (j : Fin 4) : (decStoreOne s j).seen = s.seen := rfl

end Sys2Proof.Machine
end

