-- ==== Sys2Proof/Laws/Memory.lean ====
section
/-! SUPPORT. The laws of the buffers: a read after a write, and that every operation keeps the canonical form. -/

namespace Sys2Proof.Machine

namespace Memory

@[simp] theorem read?_nil (i : Nat) : Memory.read? [] i = none := rfl

@[simp] theorem read?_cons (c : Host.Cell) (m : Memory) (i : Nat) :
    Memory.read? (c :: m) i = if i = c.1 then some c.2 else Memory.read? m i := rfl

/-- A read after a write to the same cell gives the value written. -/
@[simp] theorem read?_write_same (m : Memory) (i : Nat) (b : Byte) : (m.write i b).read? i = some b := by
  induction m with
  | nil => simp [Memory.write]
  | cons c m ih =>
    simp only [Memory.write]
    split
    · simp
    · split
      · simp
      · simp [*]

/-- A write leaves every other cell alone. -/
theorem read?_write_other (m : Memory) {i j : Nat} (b : Byte) (h : j ≠ i) :
    (m.write i b).read? j = m.read? j := by
  induction m with
  | nil => simp [Memory.write, h]
  | cons c m ih =>
    simp only [Memory.write]
    split
    · simp [h]
    · split
      · next hi => subst hi; simp [h]
      · simp [ih]

/-- What a buffer holds after a write. -/
theorem read?_write (m : Memory) (i j : Nat) (b : Byte) :
    (m.write i b).read? j = if j = i then some b else m.read? j := by
  split
  · next h => subst h; simp
  · next h => exact read?_write_other m b h

/-- A cell that holds a value is listed. -/
theorem mem_of_read? {m : Memory} {i : Nat} {b : Byte} (h : m.read? i = some b) : (i, b) ∈ m := by
  induction m with
  | nil => simp at h
  | cons c m ih =>
    rw [read?_cons] at h
    split at h
    · next hi => subst hi; simp at h; subst h; simp
    · exact List.mem_cons_of_mem _ (ih h)

/-- In the canonical form a listed cell reads as it is listed. -/
theorem read?_of_mem {m : Memory} (hm : m.wf) {c : Host.Cell} (h : c ∈ m) : m.read? c.1 = some c.2 := by
  induction m with
  | nil => simp at h
  | cons d m ih =>
    rw [Memory.wf, List.pairwise_cons] at hm
    rw [read?_cons]
    rcases List.mem_cons.1 h with rfl | h
    · simp
    · rw [if_neg (by have := hm.1 c h; omega)]
      exact ih hm.2 h

/-- What a write may list: the cell written, and what was listed. -/
theorem mem_write {m : Memory} {i : Nat} {b : Byte} {c : Host.Cell} (h : c ∈ m.write i b) : c = (i, b) ∨ c ∈ m := by
  induction m with
  | nil => simpa [Memory.write] using h
  | cons d m ih =>
    simp only [Memory.write] at h
    split at h
    · simpa using h
    · split at h
      · rcases List.mem_cons.1 h with h | h
        · exact .inl h
        · exact .inr (List.mem_cons_of_mem _ h)
      · rcases List.mem_cons.1 h with h | h
        · exact .inr (by simp [h])
        · exact (ih h).imp_right (List.mem_cons_of_mem _)

@[simp] theorem wf_nil : Memory.wf [] := List.Pairwise.nil

/-- A write keeps the canonical form. -/
theorem wf_write {m : Memory} (hm : m.wf) (i : Nat) (b : Byte) : (m.write i b).wf := by
  induction m with
  | nil => simp [Memory.write, Memory.wf]
  | cons c m ih =>
    rw [Memory.wf, List.pairwise_cons] at hm
    simp only [Memory.write]
    split
    · next hi =>
      rw [Memory.wf, List.pairwise_cons, List.pairwise_cons]
      refine ⟨fun d hd => ?_, hm⟩
      rcases List.mem_cons.1 hd with rfl | hd
      · exact hi
      · exact Nat.lt_trans hi (hm.1 d hd)
    · split
      · next hi =>
        subst hi
        rw [Memory.wf, List.pairwise_cons]
        exact ⟨hm.1, hm.2⟩
      · next h1 h2 =>
        rw [Memory.wf, List.pairwise_cons]
        refine ⟨fun d hd => ?_, ih hm.2⟩
        rcases mem_write hd with rfl | hd
        · show c.1 < i
          omega
        · exact hm.1 d hd

/-- Cutting a buffer off keeps the canonical form. -/
theorem wf_below {m : Memory} (hm : m.wf) (n : Nat) : (m.below n).wf := List.Pairwise.filter _ hm

theorem mem_below {m : Memory} {n : Nat} {c : Host.Cell} : c ∈ m.below n ↔ c ∈ m ∧ c.1 < n := by
  simp [Memory.below]

/-- What a buffer cut off at `n` holds: the old values below `n`, none from `n` on. -/
theorem read?_below (m : Memory) (n i : Nat) : (m.below n).read? i = if i < n then m.read? i else none := by
  induction m with
  | nil => simp [Memory.below]
  | cons c m ih =>
    simp only [Memory.below, List.filter_cons] at ih ⊢
    by_cases hc : c.1 < n
    · simp only [hc, decide_true, if_true, read?_cons, ih]
      split
      · next hi => subst hi; simp [hc]
      · rfl
    · simp only [hc, decide_false, Bool.false_eq_true, if_false, read?_cons, ih]
      split
      · rw [if_neg (by omega)]
      · rfl

/-- In the canonical form the indices listed are the cells that hold a value. -/
theorem mem_keys_iff {m : Memory} (hm : m.wf) {i : Nat} : i ∈ m.map Prod.fst ↔ (m.read? i).isSome = true := by
  constructor
  · intro h
    obtain ⟨c, hc, rfl⟩ := List.mem_map.1 h
    rw [read?_of_mem hm hc]
    rfl
  · intro h
    obtain ⟨b, hb⟩ := Option.isSome_iff_exists.1 h
    exact List.mem_map.2 ⟨_, mem_of_read? hb, rfl⟩

/-- A canonical buffer whose cells holding a value are those below `n` lists exactly these, in order. -/
theorem keys_eq_range {m : Memory} {n : Nat} (hm : m.wf) (h : ∀ i, (m.read? i).isSome = true ↔ i < n) :
    m.map Prod.fst = List.range n := by
  have hs : (m.map Prod.fst).Pairwise (· < ·) := List.pairwise_map.2 hm
  have hr : (List.range n).Pairwise (· < ·) := List.pairwise_lt_range
  refine List.Perm.eq_of_pairwise (le := (· < ·)) (fun a b _ _ h1 h2 => by omega) hs hr ?_
  refine (List.perm_ext_iff_of_nodup (hs.imp Nat.ne_of_lt) (hr.imp Nat.ne_of_lt)).2 fun i => ?_
  rw [mem_keys_iff hm, h]
  simp

/-- A buffer that lists the cells below `n` in order is canonical. -/
theorem wf_of_keys {m : Memory} {n : Nat} (h : m.map Prod.fst = List.range n) : m.wf :=
  List.pairwise_map.1 (h ▸ List.pairwise_lt_range)

end Memory

end Sys2Proof.Machine
end

