-- ==== Sys2Proof/Laws/Operands.lean ====
section
/-! SUPPORT. The chunk arithmetic as arithmetic of naturals, so that no proof unfolds it. -/

namespace Sys2Proof.Machine

/-- Four bytes stay below 2^32, so nothing is lost (R30). -/
theorem wordOfBytes_toNat (b0 b1 b2 b3 : Byte) :
    (wordOfBytes b0 b1 b2 b3).toNat =
      2 ^ 24 * b0.toNat + 2 ^ 16 * b1.toNat + 2 ^ 8 * b2.toNat + b3.toNat := by
  have h0 := b0.isLt
  have h1 := b1.isLt
  have h2 := b2.isLt
  have h3 := b3.isLt
  rw [wordOfBytes, BitVec.toNat_ofNat, Nat.mod_eq_of_lt (by omega)]

@[simp] theorem remDigit_val (v : Word) : (remDigit v).val = v.toNat % 85 := rfl

/-- The quotient fits V (R70). -/
@[simp] theorem quotWord_toNat (v : Word) : (quotWord v).toNat = v.toNat / 85 := by
  have := v.isLt
  rw [quotWord, BitVec.toNat_ofNat, Nat.mod_eq_of_lt (by omega)]

/-- The accumulate step reduces the exact value modulo 2^32 (R84). -/
@[simp] theorem macWord_toNat (v : Word) (d : Digit) : (macWord v d).toNat = (85 * v.toNat + d.val) % 2 ^ 32 := by
  rw [macWord, BitVec.toNat_ofNat]

/-- The byte of offset `j` as a number (R30). -/
theorem byteOfWord_toNat (v : Word) (j : Fin 4) :
    (byteOfWord v j).toNat = v.toNat / 2 ^ (8 * (3 - j.val)) % 2 ^ 8 := by
  simp [byteOfWord, BitVec.extractLsb'_toNat, Nat.shiftRight_eq_div_pow]

end Sys2Proof.Machine
end

