-- ==== Sys2Proof/Laws/Engine.lean ====
section
/-! SUPPORT. What the engine's steps do: for each, what it can change, and what it writes. -/

namespace Sys2Proof.Machine

/-- A state without what the engine may change while it runs: V, K, DIG, CH and OBUF. Two states with the same host side
agree in every other field. -/
def State.hostSide (s : State) : State :=
  { s with v := 0, k := 0, dig := Vector.replicate 5 0, ch := 0, obuf := [] }

/-- The host side says every field the engine does not write. -/
theorem hostSide_eq {s t : State} (h : s.hostSide = t.hostSide) :
    s.ibuf = t.ibuf ∧ s.ilen = t.ilen ∧ s.status = t.status ∧ s.err = t.err ∧ s.errDiv = t.errDiv ∧
      s.errPos = t.errPos ∧ s.errChar = t.errChar ∧ s.olen = t.olen ∧ s.opl = t.opl ∧ s.resetNo = t.resetNo ∧
      s.obufNo = t.obufNo ∧ s.script = t.script ∧ s.seen = t.seen := by
  simpa [State.hostSide] using h

theorem ibufRead_of_hostSide {s t : State} (h : s.hostSide = t.hostSide) : ibufRead s = ibufRead t := by
  obtain ⟨h1, -, -, -, -, -, -, -, -, h2, -⟩ := hostSide_eq h
  funext i
  rw [ibufRead, ibufRead, h1, h2]

@[simp] theorem encLoad_hostSide (s : State) : (encLoad s).hostSide = s.hostSide := rfl
@[simp] theorem encDigit_hostSide (k : Fin 5) (s : State) : (encDigit k s).hostSide = s.hostSide := rfl
@[simp] theorem encStoreOne_hostSide (s : State) (k : Fin 5) : (encStoreOne s k).hostSide = s.hostSide := rfl
@[simp] theorem nextChunk_hostSide (s : State) : (nextChunk s).hostSide = s.hostSide := rfl
@[simp] theorem decClear_hostSide (s : State) : (decClear s).hostSide = s.hostSide := rfl
@[simp] theorem decMac_hostSide (d : Digit) (s : State) : (decMac d s).hostSide = s.hostSide := rfl
@[simp] theorem decStoreOne_hostSide (s : State) (j : Fin 4) : (decStoreOne s j).hostSide = s.hostSide := rfl

/-! ## The encode family -/

/-- One chunk of ENCODE writes no field of the host side. -/
@[simp] theorem encStep_hostSide (s : State) : (encStep s).hostSide = s.hostSide := by
  simp [encStep, encStore, encDigits]

@[simp] theorem encStep_ch (s : State) : (encStep s).ch = s.ch + 1 := by
  simp [encStep, encStore, encDigits]

/-- What one chunk of ENCODE stores: the five characters of enc_chunk, from cell 5*CH on (R69, R72). -/
theorem encStep_obuf (s : State) :
    (encStep s).obuf =
      let v0 := wordOfBytes (ibufRead s (4 * s.ch)) (ibufRead s (4 * s.ch + 1)) (ibufRead s (4 * s.ch + 2))
        (ibufRead s (4 * s.ch + 3))
      ((((s.obuf.write (5 * s.ch) (alook (remDigit (quotWord (quotWord (quotWord (quotWord v0))))))).write
        (5 * s.ch + 1) (alook (remDigit (quotWord (quotWord (quotWord v0)))))).write
        (5 * s.ch + 2) (alook (remDigit (quotWord (quotWord v0))))).write
        (5 * s.ch + 3) (alook (remDigit (quotWord v0)))).write (5 * s.ch + 4) (alook (remDigit v0)) := by
  simp [encStep, encStore, encDigits]

theorem encStep_obuf_read? (s : State) (i : Nat) :
    (encStep s).obuf.read? i =
      if 5 * s.ch ≤ i ∧ i < 5 * s.ch + 5 then
        (encChunk (ibufRead s (4 * s.ch)) (ibufRead s (4 * s.ch + 1)) (ibufRead s (4 * s.ch + 2))
          (ibufRead s (4 * s.ch + 3)))[i - 5 * s.ch]?
      else s.obuf.read? i := by
  rw [encStep_obuf]
  simp only [Memory.read?_write]
  split_ifs with h4 h3 h2 h1 h0 h h <;> first | omega | rfl | (subst i; simp [encChunk])

/-- One chunk of ENCODE keeps OBUF in canonical form. -/
theorem encStep_obuf_wf {s : State} (h : s.obuf.wf) : (encStep s).obuf.wf := by
  rw [encStep_obuf]
  exact Memory.wf_write (Memory.wf_write (Memory.wf_write (Memory.wf_write (Memory.wf_write h _ _) _ _) _ _) _ _) _ _

/-- The chunks of ENCODE write no field of the host side. -/
@[simp] theorem encLoop_hostSide (n : Nat) (s : State) : (encLoop n s).hostSide = s.hostSide := by
  induction n generalizing s with
  | zero => rfl
  | succ n ih =>
    simp only [encLoop]
    split
    · rw [ih, encStep_hostSide]
    · rfl

/-- The chunks of ENCODE keep OBUF in canonical form. -/
theorem encLoop_obuf_wf (n : Nat) {s : State} (h : s.obuf.wf) : (encLoop n s).obuf.wf := by
  induction n generalizing s with
  | zero => exact h
  | succ n ih =>
    simp only [encLoop]
    split
    · exact ih (encStep_obuf_wf h)
    · exact h

@[simp] theorem encChunk_length (b0 b1 b2 b3 : Byte) : (encChunk b0 b1 b2 b3).length = 5 := rfl

/-- E3 from chunk CH on, with as many chunks as remain: it ends with CH = ILEN div 4, and it stores the text of the rest of
the input from cell 5*CH on and nothing else (R68, R72). -/
theorem encLoop_spec (n : Nat) (s : State) (h : s.ch + n = s.ilen / 4) :
    (encLoop n s).ch = s.ilen / 4 ∧ ∀ i, (encLoop n s).obuf.read? i =
      if 5 * s.ch ≤ i ∧ i < 5 * s.ch + 5 * n then
        (encChunks ((List.range' (4 * s.ch) (4 * n)).map (ibufRead s)))[i - 5 * s.ch]?
      else s.obuf.read? i := by
  induction n generalizing s with
  | zero => exact ⟨by simpa [encLoop] using h, fun i => by rw [if_neg (by omega)]; rfl⟩
  | succ n ih =>
    have hil : (encStep s).ilen = s.ilen := (hostSide_eq (encStep_hostSide s)).2.1
    obtain ⟨ih1, ih2⟩ := ih (encStep s) (by rw [encStep_ch, hil]; omega)
    rw [encStep_ch, ibufRead_of_hostSide (encStep_hostSide s)] at ih2
    simp only [encLoop]
    rw [if_pos (by omega)]
    refine ⟨by rw [ih1, hil], fun i => ?_⟩
    have hr : List.range' (4 * s.ch) (4 * (n + 1)) =
        4 * s.ch :: (4 * s.ch + 1) :: (4 * s.ch + 2) :: (4 * s.ch + 3) :: List.range' (4 * (s.ch + 1)) (4 * n) := by
      simp [Nat.mul_add, List.range'_succ]
    rw [ih2, encStep_obuf_read?, hr]
    simp only [List.map_cons, encChunks]
    split_ifs <;> first
      | omega
      | rfl
      | (rw [List.getElem?_append_left (by rw [encChunk_length]; omega)])
      | (rw [List.getElem?_append_right (by rw [encChunk_length]; omega), encChunk_length]; congr 1)

/-! ## The decode family -/

/-- DEC_CHAR over the characters of a chunk from offset `j` on is `dec_chunk`'s loop: it leaves the host side, CH, DIG and
OBUF, and raises at the first invalid character with the position counted in the whole input (R81, R83, R85). -/
theorem decCharSeq_spec (s : State) : ∀ (ks : List (Fin 5)) (j : Nat), ks.map (·.val) = List.range' j ks.length →
    match decChars j s.v (ks.map fun k => ibufRead s (5 * s.ch + k.val)) with
    | .good w => ∃ u, decCharSeq ks s = .ok u ∧
        u.hostSide = s.hostSide ∧ u.ch = s.ch ∧ u.dig = s.dig ∧ u.obuf = s.obuf ∧ u.v = w
    | .bad k c => ∃ u, decCharSeq ks s = .error (.invalidByte (5 * s.ch + k) c, u) ∧
        u.hostSide = s.hostSide ∧ u.ch = s.ch ∧ u.dig = s.dig ∧ u.obuf = s.obuf := by
  intro ks
  induction ks generalizing s with
  | nil => exact fun j _ => ⟨s, rfl, rfl, rfl, rfl, rfl, rfl⟩
  | cons k ks ih =>
    intro j hks
    simp only [List.map_cons, List.length_cons, List.range'_succ, List.cons.injEq] at hks
    obtain ⟨hk, hks⟩ := hks
    simp only [List.map_cons, decChars, decCharSeq, decChar]
    cases hr : rlook (ibufRead s (5 * s.ch + k.val)) with
    | digit d => exact ih (decMac d { s with k := k }) (j + 1) hks
    | invalidOutOfRange => exact ⟨{ s with k := k }, by rw [hk], rfl, rfl, rfl, rfl⟩
    | invalidInRange => exact ⟨{ s with k := k }, by rw [hk], rfl, rfl, rfl, rfl⟩

/-- What D6 does: the four bytes of V, from cell 4*CH on (R30). -/
theorem decStore_obuf (s : State) :
    (decStore [0, 1, 2, 3] s).obuf =
      (((s.obuf.write (4 * s.ch) (byteOfWord s.v 0)).write (4 * s.ch + 1) (byteOfWord s.v 1)).write
        (4 * s.ch + 2) (byteOfWord s.v 2)).write (4 * s.ch + 3) (byteOfWord s.v 3) := rfl

theorem decStore_obuf_read? (s : State) (i : Nat) :
    (decStore [0, 1, 2, 3] s).obuf.read? i =
      if 4 * s.ch ≤ i ∧ i < 4 * s.ch + 4 then (bytesOfWord s.v)[i - 4 * s.ch]? else s.obuf.read? i := by
  rw [decStore_obuf]
  simp only [Memory.read?_write]
  split_ifs <;> first | omega | rfl | (subst i; simp [bytesOfWord])

@[simp] theorem bytesOfWord_length (v : Word) : (bytesOfWord v).length = 4 := rfl

/-- One chunk of DECODE (R81, R82): what it stores where its characters are valid, and what it raises where one is not. -/
theorem decStep_spec (s : State) :
    match decChunk (ibufRead s (5 * s.ch)) (ibufRead s (5 * s.ch + 1)) (ibufRead s (5 * s.ch + 2))
      (ibufRead s (5 * s.ch + 3)) (ibufRead s (5 * s.ch + 4)) with
    | .good w => ∃ u, decStep s = .ok u ∧ u.hostSide = s.hostSide ∧ u.ch = s.ch + 1 ∧ u.dig = s.dig ∧
        (s.obuf.wf → u.obuf.wf) ∧ ∀ i, u.obuf.read? i =
          if 4 * s.ch ≤ i ∧ i < 4 * s.ch + 4 then (bytesOfWord w)[i - 4 * s.ch]? else s.obuf.read? i
    | .bad k c => ∃ u, decStep s = .error (.invalidByte (5 * s.ch + k) c, u) ∧
        u.hostSide = s.hostSide ∧ u.ch = s.ch ∧ u.dig = s.dig := by
  have h := decCharSeq_spec (decClear s) [0, 1, 2, 3, 4] 0 (by decide)
  change match decChunk (ibufRead s (5 * s.ch)) (ibufRead s (5 * s.ch + 1)) (ibufRead s (5 * s.ch + 2))
      (ibufRead s (5 * s.ch + 3)) (ibufRead s (5 * s.ch + 4)) with
    | .good w => _
    | .bad k c => _ at h
  unfold decStep
  cases hr : decChunk (ibufRead s (5 * s.ch)) (ibufRead s (5 * s.ch + 1)) (ibufRead s (5 * s.ch + 2))
      (ibufRead s (5 * s.ch + 3)) (ibufRead s (5 * s.ch + 4)) with
  | good w =>
    rw [hr] at h
    obtain ⟨u, hu, h1, h2, h3, h4, h5⟩ := h
    rw [hu]
    refine ⟨_, rfl, h1, congrArg (· + 1) h2, h3, fun hwf => ?_, fun i => ?_⟩
    · rw [nextChunk_obuf, decStore_obuf, h4]
      exact Memory.wf_write (Memory.wf_write (Memory.wf_write (Memory.wf_write hwf _ _) _ _) _ _) _ _
    · rw [nextChunk_obuf, decStore_obuf_read?, h2, h4, h5]
      rfl
  | bad k c =>
    rw [hr] at h
    obtain ⟨u, hu, h1, h2, h3, -⟩ := h
    rw [hu]
    exact ⟨u, rfl, h1, h2, h3⟩

/-- D3 from chunk CH on, with as many chunks as remain (R77, R80, R82): the state at the end, or the error with the
state in which it was raised. -/
theorem decLoop_spec (n : Nat) (s : State) (h : s.ch + n = s.ilen / 5) :
    match decChunks s.ch ((List.range' (5 * s.ch) (5 * n)).map (ibufRead s)) with
    | .ok out => out.length = 4 * n ∧ ∃ u, decLoop n s = .ok u ∧
        u.hostSide = s.hostSide ∧ u.ch = s.ilen / 5 ∧ u.dig = s.dig ∧ (s.obuf.wf → u.obuf.wf) ∧
        ∀ i, u.obuf.read? i =
          if 4 * s.ch ≤ i ∧ i < 4 * s.ch + 4 * n then out[i - 4 * s.ch]? else s.obuf.read? i
    | .error e => ∃ u, decLoop n s = .error (e, u) ∧
        u.hostSide = s.hostSide ∧ u.ch < s.ilen / 5 ∧ u.dig = s.dig := by
  induction n generalizing s with
  | zero => exact ⟨rfl, s, rfl, rfl, by omega, rfl, id, fun i => by rw [if_neg (by omega)]⟩
  | succ n ih =>
    have hr : List.range' (5 * s.ch) (5 * (n + 1)) =
        5 * s.ch :: (5 * s.ch + 1) :: (5 * s.ch + 2) :: (5 * s.ch + 3) :: (5 * s.ch + 4) ::
          List.range' (5 * (s.ch + 1)) (5 * n) := by
      simp [Nat.mul_add, List.range'_succ]
    have hstep := decStep_spec s
    rw [hr]
    simp only [List.map_cons, decChunks, decLoop]
    rw [if_pos (by omega)]
    generalize decChunk _ _ _ _ _ = r at hstep ⊢
    cases r with
    | bad k c =>
      obtain ⟨u, hu, h1, h2, h3⟩ := hstep
      simp only [hu]
      exact ⟨u, rfl, h1, by omega, h3⟩
    | good w =>
      obtain ⟨u, hu, h1, h2, h3, h4, h5⟩ := hstep
      have hil := (hostSide_eq h1).2.1
      have := ih u (by rw [h2, hil]; omega)
      rw [h2, ibufRead_of_hostSide h1, hil] at this
      simp only [hu]
      split at this <;> rename_i heq <;> simp only [heq]
      · obtain ⟨hl, x, hx, g1, g2, g3, g4, g5⟩ := this
        refine ⟨by simp [hl]; omega, x, hx, g1.trans h1, g2, g3.trans h3, g4 ∘ h4, fun i => ?_⟩
        rw [g5, h5]
        split_ifs <;> first
          | omega
          | rfl
          | (rw [List.getElem?_append_left (by rw [bytesOfWord_length]; omega)])
          | (rw [List.getElem?_append_right (by rw [bytesOfWord_length]; omega), bytesOfWord_length]; congr 1)
      · obtain ⟨x, hx, g1, g2, g3⟩ := this
        exact ⟨x, hx, g1.trans h1, g2, g3.trans h3⟩

end Sys2Proof.Machine
end

