-- ==== Sys2Proof/Laws/Steps.lean ====
section
/-! SUPPORT. Everything a command, a host's move and a step can do, said once: later proofs take these cases instead of
unfolding. -/

namespace Sys2Proof.Machine

/-! ## Inputs and outputs as lists -/

/-- The input as the engine's loops read it. -/
theorem input_eq (s : State) : s.input = (List.range' 0 s.ilen).map (ibufRead s) := by
  rw [State.input, List.range_eq_range']

@[simp] theorem input_length (s : State) : s.input.length = s.ilen := by simp [State.input]

@[simp] theorem output_length (s : State) : s.output.length = s.olen := by simp [State.output]

/-- Five characters for each whole group of four bytes (R71). -/
theorem encChunks_length : ∀ b : List Byte, (encChunks b).length = b.length / 4 * 5
  | b0 :: b1 :: b2 :: b3 :: rest => by
    have h : (b0 :: b1 :: b2 :: b3 :: rest).length = rest.length + 4 := rfl
    rw [encChunks, List.length_append, encChunks_length rest, encChunk_length, h]
    omega
  | [] => by simp [encChunks]
  | [_] => by simp [encChunks]
  | [_, _] => by simp [encChunks]
  | [_, _, _] => by simp [encChunks]

/-- A state reads as a list what its cells hold as that list. -/
theorem output_of_read? {t : State} {out : List Byte} (hl : t.olen = out.length)
    (h : ∀ i < out.length, t.obuf.read? i = out[i]?) : t.output = out := by
  apply List.ext_getElem
  · simp [hl]
  · intro i h1 h2
    simp [State.output, obufRead, h i h2, List.getElem?_eq_getElem h2]

/-! ## The commands -/

/-- Everything ENCODE can do (R65, R66): the error completion at once, or a success over a state that differs from the one at
START in V, K, DIG, CH and OBUF only. -/
theorem execEncode_cases (s : State) :
    (s.ilen % 4 ≠ 0 ∧ execEncode s = .next (raise (.invalidLength 4) s)) ∨
    (s.ilen % 4 = 0 ∧ ∃ u, execEncode s = .next (complete (s.ilen / 4 * 5) u) ∧
      u.hostSide = s.hostSide ∧ u.ch = s.ilen / 4 ∧ (s.obuf.wf → u.obuf.wf) ∧
      ∀ i < s.ilen / 4 * 5, u.obuf.read? i = (encChunks s.input)[i]?) := by
  unfold execEncode
  by_cases h : s.ilen % 4 = 0
  · rw [if_neg (by simp [h])]
    obtain ⟨h1, h2⟩ := encLoop_spec (s.ilen / 4) { s with ch := 0 } (by simp)
    refine .inr ⟨h, _, rfl, encLoop_hostSide _ _, h1, fun hw => encLoop_obuf_wf _ hw, fun i hi => ?_⟩
    rw [h2, if_pos ⟨by simp, by simp; omega⟩, input_eq]
    have : 4 * (s.ilen / 4) = s.ilen := by omega
    simp only [this]
    rfl
  · rw [if_pos h]
    exact .inl ⟨h, rfl⟩

/-- Everything DECODE can do (R77, R78): the error completion at once; or InvalidByte from a state, or a success over a state,
that differs from the one at START in V, K, CH and OBUF only. -/
theorem execDecode_cases (s : State) :
    (s.ilen % 5 ≠ 0 ∧ execDecode s = .next (raise (.invalidLength 5) s)) ∨
    (s.ilen % 5 = 0 ∧ ∃ e u, execDecode s = .next (raise e u) ∧ decChunks 0 s.input = .error e ∧
      u.hostSide = s.hostSide ∧ u.ch < s.ilen / 5 ∧ u.dig = s.dig) ∨
    (s.ilen % 5 = 0 ∧ ∃ out u, execDecode s = .next (complete (s.ilen / 5 * 4) u) ∧ decChunks 0 s.input = .ok out ∧
      u.hostSide = s.hostSide ∧ u.ch = s.ilen / 5 ∧ u.dig = s.dig ∧ (s.obuf.wf → u.obuf.wf) ∧
      out.length = s.ilen / 5 * 4 ∧ ∀ i < s.ilen / 5 * 4, u.obuf.read? i = out[i]?) := by
  unfold execDecode
  by_cases h : s.ilen % 5 = 0
  · rw [if_neg (by simp [h])]
    have hd := decLoop_spec (s.ilen / 5) { s with ch := 0 } (by simp)
    have hin : (List.range' (5 * ({ s with ch := 0 } : State).ch) (5 * (s.ilen / 5))).map
        (ibufRead { s with ch := 0 }) = s.input := by
      have : 5 * (s.ilen / 5) = s.ilen := by omega
      rw [this, input_eq]
      rfl
    rw [hin] at hd
    split at hd <;> rename_i heq
    · obtain ⟨hl, u, hu, g1, g2, g3, g4, g5⟩ := hd
      rw [hu]
      refine .inr (.inr ⟨h, _, u, rfl, heq, g1, g2, g3, g4, by omega, fun i hi => ?_⟩)
      rw [g5, if_pos ⟨by simp, by simp; omega⟩]
      rfl
    · obtain ⟨u, hu, g1, g2, g3⟩ := hd
      rw [hu]
      exact .inr (.inl ⟨h, _, u, rfl, heq, g1, g2, g3⟩)
  · rw [if_pos h]
    exact .inl ⟨h, rfl⟩

/-- Every operation reaches a completion step, of success or of an error, over a state with the host side of START's (R118). -/
theorem exec_cases (i : Instr) (s : State) :
    ∃ u, u.hostSide = s.hostSide ∧
      ((∃ n, exec i s = .next (complete n u)) ∨ ∃ e, exec i s = .next (raise e u)) := by
  cases i with
  | encode =>
    rcases execEncode_cases s with ⟨-, h⟩ | ⟨-, u, h, hu, -⟩
    · exact ⟨s, rfl, .inr ⟨_, h⟩⟩
    · exact ⟨u, hu, .inl ⟨_, h⟩⟩
  | decode =>
    rcases execDecode_cases s with ⟨-, h⟩ | ⟨-, e, u, h, -, hu, -⟩ | ⟨-, out, u, h, -, hu, -⟩
    · exact ⟨s, rfl, .inr ⟨_, h⟩⟩
    · exact ⟨u, hu, .inr ⟨_, h⟩⟩
    · exact ⟨u, hu, .inl ⟨_, h⟩⟩

/-! ## Turns -/

/-- Drawing OBUF's cells anew keeps the host side but for the draw number. -/
theorem drawObuf_eq (s : State) : drawObuf s = { s with obufNo := (drawObuf s).obufNo } := by
  unfold drawObuf
  split <;> rfl

/-- Everything the engine's turn can do (R29). -/
theorem engineTurn_cases (s : State) :
    (s.status ≠ .busy ∧ engineTurn s = .next s) ∨
    (s.status = .busy ∧ engineTurn s = exec (fetch s) (drawObuf s)) := by
  unfold engineTurn
  cases h : s.status <;> simp

/-- Everything a step can be: the engine's turn, the end of a WAIT, or an action of the world outside. -/
theorem step_cases (s : State) :
    (s.script = [] ∧ step s = engineTurn s) ∨
    (∃ rest, s.script = .engine :: rest ∧ step s = engineTurn { s with script := rest }) ∨
    (∃ rest, s.script = .wait :: rest ∧ s.status = .done ∧ step s = .next { s with script := rest }) ∨
    (∃ rest, s.script = .wait :: rest ∧ s.status ≠ .done ∧ step s = engineTurn s) ∨
    ∃ a rest, s.script = .host a :: rest ∧ step s = hostAct a (drawObuf { s with script := rest }) := by
  unfold step takeTurn
  cases hs : s.script with
  | nil => simp
  | cons a rest =>
    cases a with
    | host a => simp
    | engine => simp
    | wait =>
      unfold waitTurn
      cases h : s.status <;> simp

/-- Everything an action of the world outside can do. -/
theorem hostAct_cases (a : HostAction) (s : State) :
    (∃ i b, a = .writeIbuf i b ∧ s.status ≠ .busy ∧ hostAct a s = .next { s with ibuf := s.ibuf.write i b }) ∨
    (∃ i b, a = .writeIbuf i b ∧ s.status = .busy ∧ hostAct a s = .fault .ibufWriteWhileBusy) ∨
    (∃ n, a = .writeIlen n ∧ s.status ≠ .busy ∧ hostAct a s = .next { s with ilen := n }) ∨
    (∃ n, a = .writeIlen n ∧ s.status = .busy ∧ hostAct a s = .fault .ilenWriteWhileBusy) ∨
    (∃ op, a = .start op ∧ s.status ≠ .busy ∧ hostAct a s = .next (acceptStart op s)) ∨
    (∃ op, a = .start op ∧ s.status = .busy ∧ hostAct a s = .next s) ∨
    (∃ r, a = .read r ∧ hostAct a s = .next { s with seen := (r, hostValue r s) :: s.seen }) ∨
    (a = .reset ∧ hostAct a s = .next
      { State.afterReset (s.resetNo + 1) (s.obufNo + 1) with script := s.script, seen := s.seen }) := by
  cases a with
  | writeIbuf i b => cases h : s.status <;> simp [hostAct, hostWriteIbuf, h]
  | writeIlen n => cases h : s.status <;> simp [hostAct, hostWriteIlen, h]
  | start op => cases h : s.status <;> simp [hostAct, hostStart, h]
  | read r => simp [hostAct, hostReadReg]
  | reset => simp [hostAct, hostReset]

/-- A run takes its first step and goes on from there. -/
theorem run_succ {s t : State} (h : step s = .next t) (n : Nat) :
    Host.Core.run core (n + 1) s = Host.Core.run core n t := by
  have h' : core.step s = .next t := h
  simp only [Host.Core.run, h']

@[simp] theorem run_zero (s : State) : Host.Core.run core 0 s = .next s := rfl

end Sys2Proof.Machine
end

