-- ==== Sys2Proof/Laws/Codec.lean ====
section
/-! SUPPORT. Lemmas about the functions on sequences, and about a completion as the host reads it. -/

namespace Sys2Proof.Machine

/-! ## One chunk of text -/

/-- A lookup that gives no digit is one of the two kinds of invalid. -/
theorem isDigit_eq_false {c : Byte} (h : ∀ d, rlook c ≠ .digit d) : (rlook c).isDigit = false := by
  cases hr : rlook c with
  | digit d => exact absurd hr (h d)
  | invalidOutOfRange => rfl
  | invalidInRange => rfl

/-- An invalid character ends the chunk at its offset. -/
theorem decChars_of_invalid {c : Byte} (k : Nat) (v : Word) (cs : List Byte) (h : (rlook c).isDigit = false) :
    decChars k v (c :: cs) = .bad k c := by
  unfold decChars
  cases hr : rlook c with
  | digit d => rw [hr] at h; cases h
  | invalidOutOfRange => rfl
  | invalidInRange => rfl

/-- A valid character is accumulated. -/
theorem decChars_of_digit {c : Byte} {d : Digit} (k : Nat) (v : Word) (cs : List Byte) (h : rlook c = .digit d) :
    decChars k v (c :: cs) = decChars (k + 1) (macWord v d) cs := by
  rw [decChars, h]

/-- Everything the characters of a chunk can give: a value, or the first invalid one with its offset. -/
theorem decChars_cases (cs : List Byte) (k : Nat) (v : Word) :
    (∃ w, decChars k v cs = .good w) ∨
    ∃ j c, j < cs.length ∧ decChars k v cs = .bad (k + j) c ∧ cs[j]? = some c ∧ (rlook c).isDigit = false ∧
      ∀ i < j, ∀ d, cs[i]? = some d → (rlook d).isDigit = true := by
  induction cs generalizing k v with
  | nil => exact .inl ⟨v, rfl⟩
  | cons c cs ih =>
    by_cases h : ∃ d, rlook c = .digit d
    · obtain ⟨d, hd⟩ := h
      rw [decChars_of_digit _ _ _ hd]
      rcases ih (k + 1) (macWord v d) with h | ⟨j, c', h1, h2, h3, h4, h5⟩
      · exact .inl h
      · refine .inr ⟨j + 1, c', by simpa using h1, by rw [h2]; congr 1; omega, by simpa using h3, h4, ?_⟩
        intro i hi e he
        cases i with
        | zero => simp at he; subst he; simp [hd, Lookup.isDigit]
        | succ i => exact h5 i (by omega) e (by simpa using he)
    · have hb := isDigit_eq_false (c := c) (by simpa using h)
      exact .inr ⟨0, c, by simp, by rw [decChars_of_invalid _ _ _ hb]; rfl, by simp, hb, by intro i hi; omega⟩

/-- The only error of the chunks is InvalidByte. -/
theorem decChunks_error : ∀ (t : List Byte) (c : Nat) (e : BlockError), decChunks c t = .error e →
    ∃ p ch, e = .invalidByte p ch
  | c0 :: c1 :: c2 :: c3 :: c4 :: rest, c, e, h => by
    simp only [decChunks] at h
    split at h
    · injection h with h; exact ⟨_, _, h.symm⟩
    · split at h
      · rename_i hr; injection h with h; subst h; exact decChunks_error rest _ _ hr
      · cases h
  | [], _, _, h => by simp [decChunks] at h
  | [_], _, _, h => by simp [decChunks] at h
  | [_, _], _, _, h => by simp [decChunks] at h
  | [_, _, _], _, _, h => by simp [decChunks] at h
  | [_, _, _, _], _, _, h => by simp [decChunks] at h

/-! ## The input, and a result as the host reads it -/

theorem input_getElem? (s : State) (i : Nat) : s.input[i]? = if i < s.ilen then some (ibufRead s i) else none := by
  unfold State.input
  split <;> simp_all

/-- What a completion with the output `out` leaves in OBUF. -/
theorem complete_read? {n : Nat} {u : State} {out : List Byte} (hl : out.length = n)
    (h : ∀ i < n, u.obuf.read? i = out[i]?) : ∀ i < out.length, (complete n u).obuf.read? i = out[i]? := by
  intro i hi
  rw [complete_obuf, Memory.read?_below, if_pos (by omega), h i (by omega)]

/-- What the host reads after a completion with the output `out`. -/
theorem complete_result {n : Nat} {u : State} {out : List Byte} (hl : out.length = n)
    (h : ∀ i < n, u.obuf.read? i = out[i]?) : (complete n u).result = .ok out := by
  have := output_of_read? (t := complete n u) (out := out) (by simp [hl]) (complete_read? hl h)
  show Except.ok _ = _
  rw [this]

end Sys2Proof.Machine
end

