-- ==== Sys2Proof/Laws/Frames.lean ====
section
/-! SUPPORT. What commands and turns leave alone, and when one state inherits an invariant of another. -/

namespace Sys2Proof.Machine

/-! ## Commands -/

theorem sameOutside_complete {s u : State} (n : Nat) (h : u.hostSide = s.hostSide) : s.sameOutside (complete n u) := by
  have := hostSide_eq h
  simp [State.sameOutside]
  tauto

theorem sameOutside_raise {s u : State} (e : BlockError) (h : u.hostSide = s.hostSide) : s.sameOutside (raise e u) := by
  have := hostSide_eq h
  simp [State.sameOutside]
  tauto

theorem ibufRead_of_sameOutside {s t : State} (h : s.sameOutside t) : ibufRead t = ibufRead s := by
  funext i
  simp [ibufRead, h.1, h.2.2.2.1]

/-- Every command ends DONE and leaves the outside alone. -/
theorem exec_sameOutside {i : Instr} {s t : State} (h : exec i s = .next t) : s.sameOutside t ∧ t.status = .done := by
  obtain ⟨u, hu, ⟨n, h'⟩ | ⟨e, h'⟩⟩ := exec_cases i s <;> rw [h'] at h <;> injection h with h <;> subst h
  · exact ⟨sameOutside_complete _ hu, rfl⟩
  · exact ⟨sameOutside_raise _ hu, by simp⟩

/-! ## Turns -/

theorem drawObuf_of_ne_busy {s : State} (h : s.status ≠ .busy) : drawObuf s = s := by
  unfold drawObuf
  cases hs : s.status <;> simp_all

theorem drawObuf_of_busy {s : State} (h : s.status = .busy) : drawObuf s = { s with obufNo := s.obufNo + 1 } := by
  unfold drawObuf
  rw [h]

theorem step_of_host {s : State} {a : HostAction} {rest : List Turn} (hs : s.script = .host a :: rest) :
    step s = hostAct a (drawObuf { s with script := rest }) := by
  unfold step takeTurn
  rw [hs]

/-! ## When a state inherits an invariant -/

/-- The invariant speaks of IBUF's form, OBUF, OLEN, STATE, the error registers and OPL only. -/
theorem Inv_of_agree {s t : State} (h : s.Inv) (h1 : t.ibuf.wf) (h2 : t.obuf = s.obuf) (h3 : t.olen = s.olen)
    (h4 : t.status = s.status) (h5 : t.err = s.err) (h6 : t.errDiv = s.errDiv) (h7 : t.errPos = s.errPos)
    (h8 : t.errChar = s.errChar) (h9 : t.opl = s.opl) : t.Inv := by
  refine ⟨h1, by rw [h2, h3]; exact h.obuf_cells, by rw [h3, h4, h5]; exact h.clear_unless_done,
    by rw [h3, h5]; exact h.no_partial_output, ?_, by rw [h9, h3]; exact h.whole_chunks,
    by rw [h4, h9, h2]; exact h.text_of_alphabet⟩
  have := h.payload
  unfold State.payloadAgrees at *
  rw [h5, h6, h7, h8, h9]
  exact this

/-- Fitting LEN_W speaks of the buffers, ILEN, OLEN, ERR_POS and the script only. -/
theorem Fits_of_agree {lenW : Nat} {s t : State} (h : s.Fits lenW) (h1 : ∀ c ∈ t.ibuf, c.1 < Config.inMax lenW)
    (h2 : t.obuf = s.obuf) (h3 : t.olen = s.olen) (h4 : t.ilen ≤ Config.inMax lenW) (h5 : t.errPos = s.errPos)
    (h6 : ∀ x ∈ t.script, x ∈ s.script) : t.Fits lenW :=
  ⟨h4, h1, h2 ▸ h.obuf_lt, h3 ▸ h.olen_le, h3 ▸ h.olen_lt, h5 ▸ h.errPos_lt, fun x hx => h.script_fits x (h6 x hx)⟩

end Sys2Proof.Machine
end

