-- ==== Sys2Proof/Laws/PerInstr.lean ====
section
/-! SUPPORT. What holds of every command as syntax, one lemma for each constructor. -/

/-- A command is one well-formed byte, and its operand is one bit of it (R46). -/
def Sys2Proof.Laws.CommandByte.Statement (i : Sys2Proof.Instr) : Prop :=
  i.wellFormed = true ∧ (Sys2Proof.encode i).length = 1 ∧
    (∀ b ∈ Sys2Proof.encode i, Sys2Proof.commandByteWellFormed b = true) ∧
    (Sys2Proof.encode i).head? = some ((Sys2Proof.encodeOp i).setWidth 8)

theorem Sys2Proof.Laws.CommandByte.encode : Sys2Proof.Laws.CommandByte.Statement .encode :=
  ⟨rfl, rfl, by decide, rfl⟩

theorem Sys2Proof.Laws.CommandByte.decode : Sys2Proof.Laws.CommandByte.Statement .decode :=
  ⟨rfl, rfl, by decide, rfl⟩
end

