-- ==== Sys2Proof/Tests/Slice0.lean ====
section
/-! SUPPORT. The model's own tests, and a witness for the hypotheses of every statement that has some. Expected values
come from spec/95_test_vectors.md or are worked out by hand from the rule named. -/

namespace Sys2Proof.Tests.Slice0

open Sys2Proof Sys2Proof.Machine

/-! ## The states the tests run from -/

/-- A state in status `st` whose next turns are `script` and whose input is `bytes`; every register is 0, and OPL is
`op`. -/
def state (st : Status) (op : BitVec 1) (bytes : List Byte) (script : List Turn) : State where
  ibuf := bytes.zipIdx.map fun e => (e.2, e.1)
  obuf := []
  ilen := bytes.length
  status := st
  err := .none
  errDiv := 0
  errPos := 0
  errChar := 0
  olen := 0
  dig := Vector.replicate 5 0
  v := 0
  ch := 0
  k := 0
  opl := op
  resetNo := 0
  obufNo := 0
  script := script
  seen := []

/-- Whether an outcome is a next state that passes `p`. -/
def nextIs (o : Host.Outcome State Fault Refusal) (p : State → Bool) : Bool :=
  match o with
  | .next t => p t
  | .fault _ => false
  | .refused _ => false

/-- Whether an outcome is the fault `f`. -/
def faultIs (o : Host.Outcome State Fault Refusal) (f : Fault) : Bool :=
  match o with
  | .next _ => false
  | .fault g => f = g
  | .refused _ => false

/-- The bytes of S1. -/
def s1Bytes : List Byte := [0x86, 0x4F, 0xD2, 0x6F, 0xB5, 0x59, 0xF7, 0x5B]

/-- The text of S1, "HelloWorld". -/
def s1Text : List Byte := [0x48, 0x65, 0x6C, 0x6C, 0x6F, 0x57, 0x6F, 0x72, 0x6C, 0x64]

/-- S7's text with `~` at index 8. -/
def tildeText : List Byte := [0x48, 0x65, 0x6C, 0x6C, 0x6F, 0x57, 0x6F, 0x72, 0x7E, 0x64]

/-- S7's text with `,` at index 3. -/
def commaText : List Byte := [0x48, 0x65, 0x6C, 0x2C, 0x6F, 0x57, 0x6F, 0x72, 0x6C, 0x64]

/-! ## Well-formedness and decoding -/

/-- Ill-formed: a byte with bit 1 set, and one with bit 7 set (CMD1 has bit 0 only, R46). -/
theorem test_stray_bits_are_ill_formed :
    commandByteWellFormed 0b00000010 = false ∧ commandByteWellFormed 0b10000001 = false := by decide

/-- Both commands are well formed: there is no operand to be wrong. -/
theorem test_commands_are_well_formed :
    Instr.encode.wellFormed = true ∧ Instr.decode.wellFormed = true := by decide

/-- Ill-formed for LEN_W = 2, where IN_MAX is 3: cell 3 of IBUF, ILEN = 4; the values just below are well formed. -/
theorem test_actions_out_of_range_do_not_fit :
    HostAction.fits 2 (.writeIbuf 3 0) = false ∧ HostAction.fits 2 (.writeIbuf 2 0) = true ∧
    HostAction.fits 2 (.writeIlen 4) = false ∧ HostAction.fits 2 (.writeIlen 3) = true ∧
    Turn.fits 2 (.host (.writeIlen 4)) = false := by decide

/-- R46: `op` = 0, written in the least significant bit of a byte, is ENCODE. -/
theorem test_decode_encode_word : decode [0b00000000] = .ok (.encode, []) := by rfl

/-- R46: `op` = 1, written in the least significant bit of a byte, is DECODE. -/
theorem test_decode_decode_word : decode [0b00000001] = .ok (.decode, []) := by rfl

/-- No command is read from a byte with another bit set, or from nothing. -/
theorem test_decode_rejects :
    decode [0b00000010] = .error (.strayBits 2) ∧ decode [] = .error .noCommand := ⟨rfl, rfl⟩

/-- The table's words of both rows; a second byte that is not zero is no part of a command. -/
theorem test_table_words :
    decodeTableWord 8 0 = some .encode ∧ decodeTableWord 8 1 = some .decode ∧ decodeTableWord 8 2 = none ∧
    decodeTableWord 16 0x100 = none := by decide

/-! ## Tables (spec/95_test_vectors.md 2.1) -/

/-- The 24 entries of ALPHA that the source document itself attests (1.4), as index and code; the other 61 are general
knowledge (log entry 7). -/
theorem test_attested_alphabet_entries :
    ([(0, 0x30), (9, 0x39), (10, 0x61), (11, 0x62), (13, 0x64), (14, 0x65), (17, 0x68), (18, 0x69)] ++
      [(20, 0x6B), (21, 0x6C), (24, 0x6F), (25, 0x70), (27, 0x72), (28, 0x73), (32, 0x77), (35, 0x7A)] ++
      [(43, 0x48), (47, 0x4C), (53, 0x52), (55, 0x54), (58, 0x57), (61, 0x5A), (68, 0x21), (84, 0x23)] :
      List (Digit × Byte)).all
      (fun e => alook e.1 == e.2) = true := by decide

theorem test_alook_ends_of_runs :
    [alook 9, alook 10, alook 35, alook 36, alook 61, alook 62, alook 67, alook 83] =
      [0x39, 0x61, 0x7A, 0x41, 0x5A, 0x2E, 0x5E, 0x24] := by decide

theorem test_rlook_boundaries :
    rlook 0x20 = .invalidOutOfRange ∧ rlook 0x21 = .digit 68 ∧ rlook 0x22 = .invalidInRange ∧
    rlook 0x7C = .invalidInRange ∧ rlook 0x7D = .digit 80 ∧ rlook 0x7E = .invalidOutOfRange := by decide

/-! ## The commands, one step each -/

/-- S1: ENCODE of eight bytes gives "HelloWorld", and the last chunk's digits stay in DIG. -/
theorem test_encode_s1 :
    nextIs (exec .encode (state .busy 0 s1Bytes [])) (fun t =>
      t.output = s1Text && t.olen = 10 && t.status = .done && t.err = .none &&
        t.dig.toList = [58, 24, 27, 21, 13]) = true := by rfl

/-- S4: ENCODE of three bytes raises InvalidLength(4). -/
theorem test_encode_length_error :
    nextIs (exec .encode (state .busy 0 [1, 2, 3] [])) (fun t =>
      t.err = .invalidLength && t.errDiv = 4 && t.olen = 0 && t.status = .done) = true := by rfl

/-- S1 the other way: DECODE of "HelloWorld" gives the eight bytes. -/
theorem test_decode_s1 :
    nextIs (exec .decode (state .busy 1 s1Text [])) (fun t =>
      t.output = s1Bytes && t.olen = 8 && t.status = .done && t.err = .none) = true := by rfl

/-- S7: DECODE raises InvalidByte(8, `~`) out of the range of REV and InvalidByte(3, `,`) at a sentinel. -/
theorem test_decode_invalid_character :
    nextIs (exec .decode (state .busy 1 tildeText [])) (fun t =>
      t.err = .invalidByte && t.errPos = 8 && t.errChar = 0x7E && t.olen = 0) = true ∧
    nextIs (exec .decode (state .busy 1 commaText [])) (fun t =>
      t.err = .invalidByte && t.errPos = 3 && t.errChar = 0x2C && t.errDiv = 0) = true := ⟨rfl, rfl⟩

/-! ## The host's moves -/

/-- A START while BUSY is ignored (R113): OPL keeps 0. -/
theorem test_start_ignored_while_busy :
    nextIs (step (state .busy 0 s1Bytes [.host (.start 1)])) (fun t => t.status = .busy && t.opl = 0) = true := by rfl

/-- A host write of ILEN while DONE takes effect (R17): the length written stands in ILEN, and IBUF keeps its cells. -/
theorem test_write_ilen_takes_effect :
    nextIs (step (state .done 0 s1Bytes [.host (.writeIlen 5)])) (fun t =>
      t.ilen = 5 && t.ibuf = (state .done 0 s1Bytes []).ibuf && t.status = .done) = true := by rfl

/-- A host read after S7's error records the codes of R51 and R52, the payload and a cell of IBUF, each as it stands. -/
theorem test_reads_record_registers :
    [HostReg.state, .err, .errDiv, .errPos, .errChar, .olen, .ilen, .ibuf 8].map (fun r =>
      nextIs (hostAct (.read r) (raise (.invalidByte 8 0x7E) (state .busy 1 tildeText []))) fun t =>
        t.seen = [(r, match r with
          | .state => 2 | .err => 2 | .errDiv => 0 | .errPos => 8 | .errChar => 0x7E | .olen => 0 | .ilen => 10
          | .ibuf _ => 0x7E | .obuf _ => 0)]) = List.replicate 8 true := by rfl

/-- A host write to IBUF while BUSY stops the machine (log entry 9). -/
theorem test_write_while_busy_stops :
    faultIs (step (state .busy 0 s1Bytes [.host (.writeIbuf 0 0)])) .ibufWriteWhileBusy = true := by rfl

/-- The word of each command runs as the very next step after reset: ILEN is 0, so both succeed with no output (S6). -/
theorem test_fetch_word_runs :
    nextIs (step (State.reset.withFetchWord 8 0)) (fun t => t.status = .done && t.err = .none && t.opl = 0) = true ∧
    nextIs (step (State.reset.withFetchWord 8 1)) (fun t => t.status = .done && t.err = .none && t.opl = 1) = true :=
  ⟨rfl, rfl⟩

/-! ## Witnesses: for each statement with hypotheses, states and operands that meet them

Each clause has its own, at a boundary of its range. -/

theorem witness_CommandWordsDecode : 2 ≤ (2 : Byte).toNat ∧ 2 ≤ (255 : Byte).toNat := by decide

theorem witness_DecodeAndEncodeAgree :
    Instr.encode.wellFormed = true ∧ Instr.decode.wellFormed = true ∧
    decode [0, 7] = .ok (.encode, [7]) ∧ decode [1] = .ok (.decode, []) := ⟨rfl, rfl, rfl, rfl⟩

theorem witness_AlphabetLookupReadsTheRom : alook 84 = alook (Fin.ofNat 85 84) := by decide

/-- Below the range, above it, the sentinel at 0x22, and digits at both ends. -/
theorem witness_ReverseLookupFollowsItsContract :
    (0x20 : Byte).toNat < 0x21 ∧ 0x7D < (0x7E : Byte).toNat ∧
    (0x21 ≤ (0x22 : Byte).toNat ∧ (0x22 : Byte).toNat ≤ 0x7D ∧ revRom[1]? = some 0xFF) ∧
    (0x21 ≤ (0x21 : Byte).toNat ∧ revRom[0]? = some 0x44) ∧
    ((0x7D : Byte).toNat ≤ 0x7D ∧ revRom[92]? = some 0x50) := by decide

theorem witness_DigitStepDividesBy85 : (0 : Fin 5) ≠ 4 := by decide

/-- The largest chunk, whose text is "%nSc0". -/
theorem witness_EncodedChunksAreTheCanonicalOnes :
    encChunk 0xFF 0xFF 0xFF 0xFF = encChunk 0xFF 0xFF 0xFF 0xFF ∧
    encChunk 0xFF 0xFF 0xFF 0xFF = [0x25, 0x6E, 0x53, 0x63, 0x30] := ⟨rfl, rfl⟩

/-- The largest value below 2^32, the smallest that wraps, and a chunk whose last character is invalid. -/
theorem witness_DecodedChunkIsTheValueModulo2Pow32 :
    chunkValue? 0x25 0x6E 0x53 0x63 0x30 = some 4294967295 ∧
    chunkValue? 0x25 0x6E 0x53 0x63 0x31 = some 4294967296 ∧
    chunkValue? 0x30 0x30 0x30 0x30 0x7E = none := ⟨rfl, rfl, rfl⟩

theorem witness_DecodingInvertsEncoding : ([] : List Byte).length % 4 = 0 ∧ s1Bytes.length % 4 = 0 := by decide

theorem witness_EncodingInvertsCanonicalDecoding :
    canonicalText [] = true ∧ canonicalText [0x25, 0x6E, 0x53, 0x63, 0x30] = true := ⟨rfl, rfl⟩

theorem witness_ChunksAreTransformedIndependently :
    s1Bytes.length % 4 = 0 ∧ s1Text.length % 5 = 0 ∧ decChunks 3 s1Text = .ok s1Bytes := ⟨rfl, rfl, rfl⟩

theorem witness_EncodedTextIsOfTheAlphabet : (0x48 : Byte) ∈ encChunks s1Bytes := List.mem_cons_self

/-- Lengths 3 and 4 for ENCODE, 4 and 5 for DECODE, and the empty input. -/
theorem witness_EncodeChecksOnlyTheLength :
    (state .busy 0 [1, 2, 3] []).ilen % 4 ≠ 0 ∧ (state .busy 0 [1, 2, 3, 4] []).ilen % 4 = 0 ∧
    (state .busy 0 [] []).ilen % 4 = 0 := by decide

theorem witness_DecodeChecksTheLengthFirst :
    (state .busy 1 [0x7E, 0x7E, 0x7E, 0x7E] []).ilen % 5 ≠ 0 ∧
    (state .busy 1 [0x7E, 0x7E, 0x7E, 0x7E, 0x7E] []).ilen % 5 = 0 := by decide

/-- Both outcomes of the two output lengths. -/
theorem witness_EncodeOutputLength :
    (state .busy 0 [1, 2, 3, 4] []).ilen ≤ Config.inMax 3 ∧ (state .busy 0 [1, 2, 3] []).ilen ≤ Config.inMax 2 ∧
    nextIs (exec .encode (state .busy 0 [1, 2, 3, 4] [])) (fun t => t.err = .none) = true ∧
    nextIs (exec .encode (state .busy 0 [1, 2, 3] [])) (fun t => t.err ≠ .none) = true :=
  ⟨by decide, by decide, rfl, rfl⟩

theorem witness_DecodeOutputLength :
    nextIs (exec .decode (state .busy 1 s1Text [])) (fun t => t.err = .none) = true ∧
    nextIs (exec .decode (state .busy 1 tildeText [])) (fun t => t.err ≠ .none) = true := ⟨rfl, rfl⟩

/-- The invalid character at the first index, at the last, and nowhere. -/
theorem witness_DecodeReportsTheFirstInvalidCharacter :
    ((state .busy 1 [0x7E, 0x30, 0x30, 0x30, 0x30] []).ilen % 5 = 0 ∧
      (rlook (ibufRead (state .busy 1 [0x7E, 0x30, 0x30, 0x30, 0x30] []) 0)).isDigit = false) ∧
    ((rlook (ibufRead (state .busy 1 [0x30, 0x30, 0x30, 0x30, 0x2C] []) 4)).isDigit = false ∧
      ∀ j < 4, (rlook (ibufRead (state .busy 1 [0x30, 0x30, 0x30, 0x30, 0x2C] []) j)).isDigit = true) ∧
    ∀ j < 10, (rlook (ibufRead (state .busy 1 s1Text []) j)).isDigit = true := by decide +kernel

theorem witness_ErrorsArePrecise :
    nextIs (exec .decode (state .busy 1 tildeText [])) (fun t => t.err = .invalidByte) = true ∧
    nextIs (exec .decode (state .busy 1 [1] [])) (fun t => t.err = .invalidLength) = true ∧
    nextIs (exec .encode (state .busy 0 [1] [])) (fun t => t.err = .invalidLength) = true := ⟨rfl, rfl, rfl⟩

theorem witness_EngineLoopsEndByTheirOwnTest :
    (decLoop 2 (state .busy 1 s1Text [])).isOk = true ∧ (decLoop 2 (state .busy 1 tildeText [])).isOk = false :=
  ⟨rfl, rfl⟩

/-- ENCODE with a result and with an error. -/
theorem witness_EncodeFrame :
    nextIs (exec .encode (state .busy 0 s1Bytes [])) (fun t => t.err = .none) = true ∧
    nextIs (exec .encode (state .busy 0 [1] [])) (fun t => t.err ≠ .none) = true := ⟨rfl, rfl⟩

/-- DECODE with a result, with InvalidByte and with InvalidLength. -/
theorem witness_DecodeFrame :
    nextIs (exec .decode (state .busy 1 s1Text [])) (fun t => t.err = .none) = true ∧
    nextIs (exec .decode (state .busy 1 commaText [])) (fun t => t.err = .invalidByte) = true ∧
    nextIs (exec .decode (state .busy 1 [1] [])) (fun t => t.err = .invalidLength) = true := ⟨rfl, rfl, rfl⟩

/-- A step of each kind: the engine's, a write of each sort, a reset. -/
theorem witness_OnlyTheHostChangesTheInput :
    nextIs (step (state .busy 0 s1Bytes [])) (fun _ => true) = true ∧
    nextIs (step (state .idle 0 [] [.host (.writeIbuf 0 7)])) (fun _ => true) = true ∧
    nextIs (step (state .done 0 [] [.host (.writeIlen 4)])) (fun _ => true) = true ∧
    nextIs (step (state .busy 0 [] [.host .reset])) (fun _ => true) = true := ⟨rfl, rfl, rfl, rfl⟩

/-- Two states with the same input that differ in STATE, OPL and the script. -/
theorem witness_OperationsArePure :
    (state .busy 0 s1Bytes []).sameInput (state .done 1 s1Bytes [.wait]) :=
  ⟨rfl, fun _ _ => rfl⟩

/-- An accepted START, a completion, a reset, and a turn that changes nothing. -/
theorem witness_StatusChangesOnlyAsListed :
    nextIs (step (state .done 0 s1Bytes [.host (.start 1)])) (fun t => t.status = .busy) = true ∧
    nextIs (step (state .busy 0 s1Bytes [])) (fun t => t.status = .done) = true ∧
    nextIs (step (state .busy 0 s1Bytes [.host .reset])) (fun t => t.status = .idle) = true ∧
    nextIs (step (state .idle 0 s1Bytes [])) (fun t => t.status = .idle) = true := ⟨rfl, rfl, rfl, rfl⟩

/-- DONE, with a host write as the next turn. -/
theorem witness_ResultsHoldUntilTheNextStart :
    (state .done 0 s1Bytes [.host (.writeIbuf 0 7)]).status = .done ∧
    nextIs (step (state .done 0 s1Bytes [.host (.writeIbuf 0 7)])) (fun _ => true) = true ∧
    (∀ op rest, (state .done 0 s1Bytes [.host (.writeIbuf 0 7)]).script ≠ .host (.start op) :: rest) ∧
    ∀ rest, (state .done 0 s1Bytes [.host (.writeIbuf 0 7)]).script ≠ .host .reset :: rest := by
  refine ⟨rfl, rfl, ?_, ?_⟩ <;> simp [state]

/-- START in each status. -/
theorem witness_StartIsAcceptedUnlessBusy :
    (state .idle 0 [] [.host (.start 1)]).script = .host (.start 1) :: [] ∧
    (state .idle 0 [] [.host (.start 1)]).status ≠ .busy ∧ (state .done 0 [] [.host (.start 1)]).status ≠ .busy ∧
    (state .busy 0 [] [.host (.start 1)]).status = .busy := by decide

/-- A write of each sort in IDLE and DONE, reads in BUSY and not, each status and error, and a cell of each buffer that
holds a value. -/
theorem witness_HostAccessesDoOnlyTheirAccess :
    (state .idle 0 [] [.host (.writeIbuf 0 7)]).script = .host (.writeIbuf 0 7) :: [] ∧
    (state .idle 0 [] [.host (.writeIbuf 0 7)]).status ≠ .busy ∧
    (state .done 0 s1Bytes [.host (.writeIlen 0)]).script = .host (.writeIlen 0) :: [] ∧
    (state .done 0 s1Bytes [.host (.writeIlen 0)]).status ≠ .busy ∧
    (state .busy 0 [] [.host (.read .olen)]).script = .host (.read .olen) :: [] ∧
    (state .busy 0 [] [.host (.read .olen)]).status = .busy ∧
    (state .done 0 [] [.host (.read .olen)]).status = .done ∧
    (state .idle 0 [] [.host (.read .olen)]).status = .idle ∧ (state .idle 0 [] []).err = .none ∧
    (raise (.invalidLength 4) (state .busy 0 [1] [])).err = .invalidLength ∧
    (raise (.invalidByte 0 0x7E) (state .busy 1 [0x7E] [])).err = .invalidByte ∧
    (state .idle 0 s1Bytes []).ibuf.read? 7 = some 0x5B ∧
    nextIs (exec .encode (state .busy 0 s1Bytes [])) (fun t => t.obuf.read? 9 = some 0x64) = true := by
  decide +kernel

theorem witness_ResetGivesTheResetState :
    (state .done 0 s1Bytes [.host .reset, .wait]).script = .host .reset :: [.wait] := by decide

theorem witness_ResetAbortsARunningOperation :
    (state .busy 0 s1Bytes [.host .reset, .engine]).status = .busy ∧
    (state .busy 0 s1Bytes [.host .reset, .engine]).script = .host .reset :: .engine :: [] := by decide

/-- Both operations, each kind of engine's turn, and a loaded word of each command. -/
theorem witness_StepRunsTheDecodedOperation :
    decode [(state .busy 0 s1Bytes []).opl.setWidth 8] = .ok (.encode, []) ∧
    decode [(state .busy 1 s1Text []).opl.setWidth 8] = .ok (.decode, []) ∧
    (state .busy 1 s1Text []).status = .busy ∧ (state .busy 1 s1Text []).script = [] ∧
    (state .busy 1 s1Text [.engine]).script = .engine :: [] ∧
    (state .busy 1 s1Text [.wait]).script = .wait :: [] ∧
    decodeTableWord 8 0 = some .encode ∧ decodeTableWord 8 1 = some .decode :=
  ⟨rfl, rfl, rfl, rfl, rfl, rfl, rfl, rfl⟩

theorem witness_EngineRestsUnlessBusy :
    (state .idle 0 s1Bytes []).status ≠ .busy ∧ (state .idle 0 s1Bytes []).script = [] ∧
    (state .done 0 s1Bytes [.engine]).status ≠ .busy ∧
    (state .done 0 s1Bytes [.engine]).script = .engine :: [] := by decide

theorem witness_StartedOperationsComplete :
    (state .idle 0 s1Text [.host (.start 1), .wait]).script = .host (.start 1) :: .wait :: [] ∧
    (state .idle 0 s1Text [.host (.start 1), .wait]).status ≠ .busy := by decide

theorem witness_EmptyInputSucceeds :
    (state .done 0 [] [.host (.start 1), .engine]).script = .host (.start 1) :: .engine :: [] ∧
    (state .done 0 [] [.host (.start 1), .engine]).status ≠ .busy ∧
    (state .done 0 [] [.host (.start 1), .engine]).ilen = 0 := by decide

/-- A legal turn while BUSY, and both forbidden ones. -/
theorem witness_StepStopsOnlyOnForbiddenWrites :
    (state .busy 0 s1Bytes [.host (.start 1)]).legal = true ∧
    (state .busy 0 s1Bytes [.host (.writeIbuf 0 7)]).legal = false ∧
    (state .busy 0 s1Bytes [.host (.writeIlen 4)]).legal = false ∧
    (state .busy 0 s1Bytes [.host (.writeIlen 4)]).status = .busy ∧
    (state .busy 0 s1Bytes [.host (.writeIlen 4)]).script = .host (.writeIlen 4) :: [] ∧
    (state .busy 0 s1Bytes [.host (.writeIbuf 0 7)]).script = .host (.writeIbuf 0 7) :: [] := by decide

/-- The largest word, and a second state that holds its text as the input. -/
theorem witness_MachineRoundTrip :
    (state .busy 0 [0xFF, 0xFF, 0xFF, 0xFF] []).ilen % 4 = 0 ∧
    nextIs (exec .encode (state .busy 0 [0xFF, 0xFF, 0xFF, 0xFF] [])) (fun t =>
      (state .idle 0 [0x25, 0x6E, 0x53, 0x63, 0x30] []).ilen = t.olen &&
        (List.range t.olen).all fun i =>
          ibufRead (state .idle 0 [0x25, 0x6E, 0x53, 0x63, 0x30] []) i = obufRead t i) = true := ⟨rfl, rfl⟩

/-- A running operation with input meets the invariant and takes a step. -/
theorem witness_StepKeepsTheInvariant :
    (state .busy 1 s1Text []).Inv ∧ nextIs (step (state .busy 1 s1Text [])) (fun _ => true) = true :=
  ⟨⟨by decide, rfl, by decide, by decide, by simp [State.payloadAgrees, state], by decide, by decide⟩, rfl⟩

/-- LEN_W = 4, with the largest length, 15, and a write to the last cell, 14; and the operation that runs on it. -/
theorem witness_StepKeepsWithinLenW :
    (state .idle 0 (s1Text ++ [0x30, 0x30, 0x30, 0x30, 0x30]) [.host (.writeIbuf 14 7)]).Fits 4 ∧
    nextIs (step (state .idle 0 (s1Text ++ [0x30, 0x30, 0x30, 0x30, 0x30]) [.host (.writeIbuf 14 7)]))
      (fun _ => true) = true ∧
    (state .busy 1 (s1Text ++ [0x30, 0x30, 0x30, 0x30, 0x30]) []).Fits 4 ∧
    nextIs (step (state .busy 1 (s1Text ++ [0x30, 0x30, 0x30, 0x30, 0x30]) [])) (fun t => t.olen = 12) = true := by
  refine ⟨⟨?_, ?_, ?_, ?_, ?_, ?_, ?_⟩, rfl, ⟨?_, ?_, ?_, ?_, ?_, ?_, ?_⟩, rfl⟩ <;> decide

end Sys2Proof.Tests.Slice0
end

/-! # Proofs: what an operation delivers, what a turn can be, and the statements about the block's state -/

namespace Sys2Proof.Machine

/-! ## The function of each command -/

/-- The function on sequences that a command computes (R65, R77); `exec_of_codec_ok` and `exec_of_codec_error` tie it to the
engine. -/
def codec : Instr → List Byte → Except BlockError (List Byte)
  | .encode => z85Encode
  | .decode => z85Decode

/-- Every symbol of an encoded chunk is one of the alphabet. -/
theorem mem_encChunk {b0 b1 b2 b3 c : Byte} (h : c ∈ encChunk b0 b1 b2 b3) : ∃ d, c = alook d := by
  simp only [encChunk, List.mem_cons, List.not_mem_nil, or_false] at h
  rcases h with h | h | h | h | h <;> exact ⟨_, h⟩

/-- Every symbol of an encoded text is one of the alphabet (R75). -/
theorem mem_encChunks : ∀ {b : List Byte} {c : Byte}, c ∈ encChunks b → ∃ d, c = alook d
  | _ :: _ :: _ :: _ :: _, _, h => by
    rw [encChunks] at h
    exact (List.mem_append.1 h).elim mem_encChunk mem_encChunks
  | [], _, h => by cases h
  | [_], _, h => by cases h
  | [_, _], _, h => by cases h
  | [_, _, _], _, h => by cases h

/-- What ENCODE's function succeeds with (R65, R66). -/
theorem codec_encode_ok {b out : List Byte} (h : codec .encode b = .ok out) :
    b.length % 4 = 0 ∧ out = encChunks b := by
  simp only [codec, z85Encode] at h
  split at h
  · cases h
  · next hl => exact ⟨by omega, (Except.ok.inj h).symm⟩

/-- ENCODE's function fails with InvalidLength(4) only (R66). -/
theorem codec_encode_error {b : List Byte} {e : BlockError} (h : codec .encode b = .error e) :
    b.length % 4 ≠ 0 ∧ e = .invalidLength 4 := by
  simp only [codec, z85Encode] at h
  split at h
  · next hl => exact ⟨hl, (Except.error.inj h).symm⟩
  · cases h

/-- A bad chunk names one of its own characters, which is invalid (R81). -/
theorem decChunk_bad {c0 c1 c2 c3 c4 c : Byte} {k : Nat} (h : decChunk c0 c1 c2 c3 c4 = .bad k c) :
    [c0, c1, c2, c3, c4][k]? = some c ∧ (rlook c).isDigit = false := by
  rcases decChars_cases [c0, c1, c2, c3, c4] 0 0 with ⟨w, hw⟩ | ⟨j, c', -, hb, hj, hc, -⟩
  · rw [decChunk, hw] at h
    cases h
  · rw [decChunk, hb, Nat.zero_add] at h
    cases h
    exact ⟨hj, hc⟩

/-- The chunks raise InvalidByte at a character of the text, which is invalid, with its position counted from the start of
the whole input (R85, R93). -/
theorem decChunks_error_cell : ∀ (t : List Byte) (c : Nat) (e : BlockError), decChunks c t = .error e →
    ∃ j ch, e = .invalidByte (5 * c + j) ch ∧ t[j]? = some ch ∧ (rlook ch).isDigit = false
  | c0 :: c1 :: c2 :: c3 :: c4 :: rest, c, e, h => by
    simp only [decChunks] at h
    split at h
    · next k ch hbad =>
      obtain ⟨hk, hch⟩ := decChunk_bad hbad
      have hlt : k < [c0, c1, c2, c3, c4].length := (List.getElem?_eq_some_iff.1 hk).1
      refine ⟨k, ch, (Except.error.inj h).symm, ?_, hch⟩
      exact (List.getElem?_append_left (l₂ := rest) hlt).trans hk
    · split at h
      · next hrest =>
        cases h
        obtain ⟨j, ch, he, hj, hch⟩ := decChunks_error_cell rest (c + 1) _ hrest
        exact ⟨j + 5, ch, by rw [he]; congr 1; omega, hj, hch⟩
      · cases h
  | [], _, _, h => by cases h
  | [_], _, _, h => by cases h
  | [_, _], _, _, h => by cases h
  | [_, _, _], _, _, h => by cases h
  | [_, _, _, _], _, _, h => by cases h

/-- With whole chunks DECODE's function is that of the chunks (R77). -/
theorem codec_decode_of_length {b : List Byte} (h : b.length % 5 = 0) : codec .decode b = decChunks 0 b :=
  if_neg (not_not.2 h)

/-- Without whole chunks DECODE's function fails before any character is examined (R78). -/
theorem codec_decode_of_bad_length {b : List Byte} (h : b.length % 5 ≠ 0) :
    codec .decode b = .error (.invalidLength 5) :=
  if_pos h

/-- DECODE's function fails with InvalidLength(5), or with InvalidByte at an invalid character of the input (R77, R78, R93). -/
theorem codec_decode_error {b : List Byte} {e : BlockError} (h : codec .decode b = .error e) :
    (b.length % 5 ≠ 0 ∧ e = .invalidLength 5) ∨
    ∃ p c, e = .invalidByte p c ∧ p < b.length ∧ (rlook c).isDigit = false := by
  by_cases hl : b.length % 5 = 0
  · rw [codec_decode_of_length hl] at h
    obtain ⟨j, c, he, hj, hc⟩ := decChunks_error_cell b 0 e h
    exact .inr ⟨j, c, by simpa using he, (List.getElem?_eq_some_iff.1 hj).1, hc⟩
  · rw [codec_decode_of_bad_length hl] at h
    exact .inl ⟨hl, (Except.error.inj h).symm⟩

/-! ## What an operation delivers -/

/-- Where the function succeeds on the input, the operation completes with its output over a state that differs from the one
at START in V, K, DIG, CH and OBUF only. -/
theorem exec_of_codec_ok {i : Instr} {s : State} {out : List Byte} (h : codec i s.input = .ok out) :
    ∃ u, exec i s = .next (complete out.length u) ∧ u.hostSide = s.hostSide ∧ (s.obuf.wf → u.obuf.wf) ∧
      ∀ j < out.length, u.obuf.read? j = out[j]? := by
  cases i with
  | encode =>
    obtain ⟨hl, rfl⟩ := codec_encode_ok h
    rw [input_length] at hl
    rcases execEncode_cases s with ⟨hne, -⟩ | ⟨-, u, hu, hh, -, hw, hr⟩
    · exact absurd hl hne
    · rw [encChunks_length, input_length]
      exact ⟨u, hu, hh, hw, hr⟩
  | decode =>
    rcases execDecode_cases s with ⟨hne, -⟩ | ⟨h0, e, u, -, he, -⟩ | ⟨h0, out', u, hu, ho, hh, -, -, hw, hl, hr⟩
    · rw [codec_decode_of_bad_length (by rwa [input_length])] at h
      cases h
    · rw [codec_decode_of_length (by rwa [input_length]), he] at h
      cases h
    · rw [codec_decode_of_length (by rwa [input_length]), ho] at h
      cases h
      rw [hl]
      exact ⟨u, hu, hh, hw, hr⟩

/-- Where the function fails on the input, the operation raises its error over such a state. -/
theorem exec_of_codec_error {i : Instr} {s : State} {e : BlockError} (h : codec i s.input = .error e) :
    ∃ u, exec i s = .next (raise e u) ∧ u.hostSide = s.hostSide := by
  cases i with
  | encode =>
    obtain ⟨hl, rfl⟩ := codec_encode_error h
    rw [input_length] at hl
    rcases execEncode_cases s with ⟨-, hs⟩ | ⟨h0, -⟩
    · exact ⟨s, hs, rfl⟩
    · exact absurd h0 hl
  | decode =>
    rcases execDecode_cases s with ⟨hne, hs⟩ | ⟨h0, e', u, hu, he, hh, -⟩ | ⟨h0, out, u, -, ho, -⟩
    · rw [codec_decode_of_bad_length (by rwa [input_length])] at h
      cases h
      exact ⟨s, hs, rfl⟩
    · rw [codec_decode_of_length (by rwa [input_length]), he] at h
      cases h
      exact ⟨u, hu, hh⟩
    · rw [codec_decode_of_length (by rwa [input_length]), ho] at h
      cases h

/-- Everything an operation that gives a next state can do: complete with the output of its function on the input, or raise
its error. -/
theorem exec_next_cases {i : Instr} {s t : State} (h : exec i s = .next t) :
    (∃ out u, codec i s.input = .ok out ∧ t = complete out.length u ∧ u.hostSide = s.hostSide ∧
      (s.obuf.wf → u.obuf.wf) ∧ ∀ j < out.length, u.obuf.read? j = out[j]?) ∨
    ∃ e u, codec i s.input = .error e ∧ t = raise e u ∧ u.hostSide = s.hostSide := by
  cases hr : codec i s.input with
  | ok out =>
    obtain ⟨u, hu, hh, hw, hread⟩ := exec_of_codec_ok hr
    rw [hu] at h
    exact .inl ⟨out, u, rfl, (Host.Outcome.next.inj h).symm, hh, hw, hread⟩
  | error e =>
    obtain ⟨u, hu, hh⟩ := exec_of_codec_error hr
    rw [hu] at h
    exact .inr ⟨e, u, rfl, (Host.Outcome.next.inj h).symm, hh⟩

/-! ## Operations are pure (R27) -/

/-- States with the same input read it as the same list. -/
theorem input_eq_of_sameInput {s t : State} (h : s.sameInput t) : s.input = t.input := by
  obtain ⟨hlen, hcells⟩ := h
  unfold State.input
  rw [← hlen]
  exact List.map_congr_left fun i hi => hcells i (List.mem_range.1 hi)

/-- Completions with the same output show the same outcome, whatever else the states hold. -/
theorem sameOutcome_complete {u v : State} {out : List Byte} (hu : ∀ j < out.length, u.obuf.read? j = out[j]?)
    (hv : ∀ j < out.length, v.obuf.read? j = out[j]?) :
    (complete out.length u).sameOutcome (complete out.length v) := by
  refine ⟨rfl, rfl, rfl, rfl, rfl, rfl, fun j hj => ?_⟩
  have hj' : j < out.length := hj
  rw [obufRead, obufRead, complete_read? rfl hu j hj', complete_read? rfl hv j hj', List.getElem?_eq_getElem hj']
  rfl

/-- Raising the same error shows the same outcome, whatever else the states hold. -/
theorem sameOutcome_raise (e : BlockError) (u v : State) : (raise e u).sameOutcome (raise e v) := by
  cases e <;> exact ⟨rfl, rfl, rfl, rfl, rfl, rfl, fun j hj => absurd hj (Nat.not_lt_zero j)⟩

/-- Settles O35: the completion is that of the operation's function on the input, and equal inputs give equal results. -/
theorem operationsArePure : Obligations.OperationsArePure := by
  intro i s t hst
  have hin := input_eq_of_sameInput hst
  cases hr : codec i s.input with
  | ok out =>
    obtain ⟨u, hu, -, -, hureads⟩ := exec_of_codec_ok hr
    obtain ⟨v, hv, -, -, hvreads⟩ := exec_of_codec_ok (hin ▸ hr)
    exact ⟨_, _, hu, hv, sameOutcome_complete hureads hvreads⟩
  | error e =>
    obtain ⟨u, hu, -⟩ := exec_of_codec_error hr
    obtain ⟨v, hv, -⟩ := exec_of_codec_error (hin ▸ hr)
    exact ⟨_, _, hu, hv, sameOutcome_raise e u v⟩

/-! ## Turns -/

theorem engineTurn_of_ne_busy {s : State} (h : s.status ≠ .busy) : engineTurn s = .next s := by
  rcases engineTurn_cases s with ⟨-, h'⟩ | ⟨hb, -⟩
  · exact h'
  · exact absurd hb h

theorem engineTurn_of_busy {s : State} (h : s.status = .busy) : engineTurn s = exec (fetch s) (drawObuf s) := by
  rcases engineTurn_cases s with ⟨hb, -⟩ | ⟨-, h'⟩
  · exact absurd h hb
  · exact h'

theorem step_of_no_script {s : State} (hs : s.script = []) : step s = engineTurn s := by
  unfold step takeTurn
  rw [hs]

theorem step_of_engine {s : State} {rest : List Turn} (hs : s.script = .engine :: rest) :
    step s = engineTurn { s with script := rest } := by
  unfold step takeTurn
  rw [hs]

/-- A WAIT stays, and gives the engine the turn, until STATE is DONE (R58). -/
theorem step_of_wait {s : State} {rest : List Turn} (hs : s.script = .wait :: rest) (h : s.status ≠ .done) :
    step s = engineTurn s := by
  unfold step takeTurn
  rw [hs]
  unfold waitTurn
  cases hst : s.status with
  | idle => rfl
  | busy => rfl
  | done => exact absurd hst h

/-- A host's turn while STATE is not BUSY. -/
theorem step_of_host_of_ne_busy {s : State} {a : HostAction} {rest : List Turn} (hs : s.script = .host a :: rest)
    (h : s.status ≠ .busy) : step s = hostAct a { s with script := rest } := by
  rw [step_of_host hs, drawObuf_of_ne_busy (s := { s with script := rest }) h]

/-- A host's turn while STATE is BUSY draws OBUF's unspecified cells anew. -/
theorem step_of_host_of_busy {s : State} {a : HostAction} {rest : List Turn} (hs : s.script = .host a :: rest)
    (h : s.status = .busy) : step s = hostAct a { s with script := rest, obufNo := s.obufNo + 1 } := by
  rw [step_of_host hs, drawObuf_of_busy (s := { s with script := rest }) h]

/-- Whether the next turn gives the engine the move. -/
def engineMoves (script : List Turn) : Prop :=
  script = [] ∨ (∃ rest, script = .engine :: rest) ∨ ∃ rest, script = .wait :: rest

/-- A step that gives a next state is a turn of the engine, or an action of the world outside; the turns still to come are
among those that were. The end of a WAIT counts as a turn of the engine, which rests while STATE is DONE. -/
theorem step_next_turn {s t : State} (h : step s = .next t) :
    (∃ r ⊆ s.script, engineMoves s.script ∧ engineTurn { s with script := r } = .next t) ∨
    ∃ a rest, s.script = .host a :: rest ∧ hostAct a (drawObuf { s with script := rest }) = .next t := by
  rcases step_cases s with ⟨hs, h'⟩ | ⟨rest, hs, h'⟩ | ⟨rest, hs, hd, h'⟩ | ⟨rest, hs, -, h'⟩ | ⟨a, rest, hs, h'⟩ <;>
    rw [h'] at h
  · exact .inl ⟨s.script, List.Subset.refl _, .inl hs, h⟩
  · exact .inl ⟨rest, by simp [hs], .inr (.inl ⟨rest, hs⟩), h⟩
  · exact .inl ⟨rest, by simp [hs], .inr (.inr ⟨rest, hs⟩), (engineTurn_of_ne_busy (by simp [hd])).trans h⟩
  · exact .inl ⟨s.script, List.Subset.refl _, .inr (.inr ⟨rest, hs⟩), h⟩
  · exact .inr ⟨a, rest, hs, h⟩

/-- Everything a step that gives a next state can do: a turn at rest, the completion of the running operation, or an action
of the world outside. -/
theorem step_next_cases {s t : State} (h : step s = .next t) :
    (∃ r ⊆ s.script, s.status ≠ .busy ∧ t = { s with script := r }) ∨
    (∃ r ⊆ s.script, s.status = .busy ∧ engineMoves s.script ∧
      exec (fetch s) (drawObuf { s with script := r }) = .next t) ∨
    ∃ a rest, s.script = .host a :: rest ∧ hostAct a (drawObuf { s with script := rest }) = .next t := by
  rcases step_next_turn h with ⟨r, hr, hm, he⟩ | hhost
  · rcases engineTurn_cases { s with script := r } with ⟨hb, h'⟩ | ⟨hb, h'⟩ <;> rw [h'] at he
    · exact .inl ⟨r, hr, hb, (Host.Outcome.next.inj he).symm⟩
    · exact .inr (.inl ⟨r, hr, hb, hm, he⟩)
  · exact .inr (.inr hhost)

/-- Everything an action of the world outside that gives a next state can do. -/
theorem hostAct_next_cases {a : HostAction} {s t : State} (h : hostAct a s = .next t) :
    (∃ i b, a = .writeIbuf i b ∧ s.status ≠ .busy ∧ t = { s with ibuf := s.ibuf.write i b }) ∨
    (∃ n, a = .writeIlen n ∧ s.status ≠ .busy ∧ t = { s with ilen := n }) ∨
    (∃ op, a = .start op ∧ s.status ≠ .busy ∧ t = acceptStart op s) ∨
    (∃ op, a = .start op ∧ s.status = .busy ∧ t = s) ∨
    (∃ r, a = .read r ∧ t = { s with seen := (r, hostValue r s) :: s.seen }) ∨
    (a = .reset ∧
      t = { State.afterReset (s.resetNo + 1) (s.obufNo + 1) with script := s.script, seen := s.seen }) := by
  rcases hostAct_cases a s with ⟨i, b, ha, hb, h'⟩ | ⟨i, b, ha, hb, h'⟩ | ⟨n, ha, hb, h'⟩ | ⟨n, ha, hb, h'⟩ |
    ⟨op, ha, hb, h'⟩ | ⟨op, ha, hb, h'⟩ | ⟨r, ha, h'⟩ | ⟨ha, h'⟩ <;> rw [h'] at h <;> cases h
  · exact .inl ⟨i, b, ha, hb, rfl⟩
  · exact .inr (.inl ⟨n, ha, hb, rfl⟩)
  · exact .inr (.inr (.inl ⟨op, ha, hb, rfl⟩))
  · exact .inr (.inr (.inr (.inl ⟨op, ha, hb, rfl⟩)))
  · exact .inr (.inr (.inr (.inr (.inl ⟨r, ha, rfl⟩))))
  · exact .inr (.inr (.inr (.inr (.inr ⟨ha, rfl⟩))))

/-! ## The invariant (R15, R20, R21, R25, R52, R57, R75, R97) -/

theorem fetch_of_opl_zero {s : State} (h : s.opl = 0) : fetch s = .encode := by
  rw [fetch, decodeOp, if_pos h]

theorem fetch_of_opl_ne_zero {s : State} (h : s.opl ≠ 0) : fetch s = .decode := by
  rw [fetch, decodeOp, if_neg h]

theorem fetch_of_hostSide {s u : State} (h : u.hostSide = s.hostSide) : fetch u = fetch s := by
  obtain ⟨-, -, -, -, -, -, -, -, hopl, -⟩ := hostSide_eq h
  rw [fetch, fetch, hopl]

/-- Four bytes for each whole group of five characters (R86). -/
theorem decChunks_length : ∀ (t : List Byte) (c : Nat) (out : List Byte), decChunks c t = .ok out →
    out.length = t.length / 5 * 4
  | c0 :: c1 :: c2 :: c3 :: c4 :: rest, c, out, h => by
    simp only [decChunks] at h
    split at h
    · cases h
    · split at h
      · cases h
      · next more hrest =>
        cases h
        have ih := decChunks_length rest (c + 1) more hrest
        simp only [List.length_append, bytesOfWord_length, List.length_cons, ih]
        omega
  | [], _, _, h => by cases h; rfl
  | [_], _, _, h => by cases h; simp
  | [_, _], _, _, h => by cases h; simp
  | [_, _, _], _, _, h => by cases h; simp
  | [_, _, _, _], _, _, h => by cases h; simp

/-- How many bytes DECODE's function succeeds with (R86). -/
theorem codec_decode_ok {b out : List Byte} (h : codec .decode b = .ok out) :
    b.length % 5 = 0 ∧ out.length = b.length / 5 * 4 := by
  by_cases hl : b.length % 5 = 0
  · rw [codec_decode_of_length hl] at h
    exact ⟨hl, decChunks_length b 0 out h⟩
  · rw [codec_decode_of_bad_length hl] at h
    cases h

/-- What a completion lists in OBUF is what the output holds. -/
theorem mem_complete_obuf {u : State} {out : List Byte} (ho : u.obuf.wf)
    (hread : ∀ j < out.length, u.obuf.read? j = out[j]?) {c : Host.Cell} (hc : c ∈ (complete out.length u).obuf) :
    c.2 ∈ out := by
  obtain ⟨hmem, hlt⟩ := Memory.mem_below.1 hc
  have : out[c.1]? = some c.2 := by rw [← hread c.1 hlt, Memory.read?_of_mem ho hmem]
  exact List.mem_of_getElem? this

/-- A completion lists exactly the cells below OLEN, in order (R15). -/
theorem complete_obuf_keys {u : State} {out : List Byte} (ho : u.obuf.wf)
    (hread : ∀ j < out.length, u.obuf.read? j = out[j]?) :
    (complete out.length u).obuf.map Prod.fst = List.range out.length := by
  refine Memory.keys_eq_range (Memory.wf_below ho _) fun j => ?_
  rw [complete_obuf, Memory.read?_below]
  split
  · next hj => simp [hread j hj, hj]
  · next hj => simp [hj]

/-- A completion with the output of the operation that OPL selects meets the invariant. -/
theorem Inv_complete {u : State} {b out : List Byte} (hi : u.ibuf.wf) (ho : u.obuf.wf)
    (hread : ∀ j < out.length, u.obuf.read? j = out[j]?) (hout : codec (fetch u) b = .ok out) :
    (complete out.length u).Inv where
  ibuf_wf := hi
  obuf_cells := complete_obuf_keys ho hread
  clear_unless_done h := absurd rfl h
  no_partial_output h := absurd rfl h
  payload := ⟨rfl, rfl, rfl⟩
  whole_chunks := by
    rw [complete_opl, complete_olen]
    split
    · next hop =>
      rw [fetch_of_opl_zero hop] at hout
      rw [(codec_encode_ok hout).2, encChunks_length]
      exact Nat.mul_mod_left _ _
    · next hop =>
      rw [fetch_of_opl_ne_zero hop] at hout
      rw [(codec_decode_ok hout).2]
      exact Nat.mul_mod_left _ _
  text_of_alphabet _ hop c hc := by
    rw [fetch_of_opl_zero (s := u) hop] at hout
    exact mem_encChunks ((codec_encode_ok hout).2 ▸ mem_complete_obuf ho hread hc)

/-- The errors of the operation that OPL selects agree with the registers that report them (R92, R93). -/
theorem payloadAgrees_raise {u : State} {b : List Byte} {e : BlockError} (he : codec (fetch u) b = .error e) :
    (raise e u).payloadAgrees := by
  by_cases hop : u.opl = 0
  · rw [fetch_of_opl_zero hop] at he
    obtain ⟨-, rfl⟩ := codec_encode_error he
    exact ⟨(if_pos hop).symm, rfl, rfl⟩
  · rw [fetch_of_opl_ne_zero hop] at he
    rcases codec_decode_error he with ⟨-, rfl⟩ | ⟨p, c, rfl, -, hc⟩
    · exact ⟨(if_neg hop).symm, rfl, rfl⟩
    · exact ⟨(BitVec.eq_zero_or_eq_one u.opl).resolve_left hop, rfl, hc⟩

/-- An error of the operation that OPL selects meets the invariant: it leaves no output (R97). -/
theorem Inv_raise {u : State} {b : List Byte} {e : BlockError} (hi : u.ibuf.wf)
    (he : codec (fetch u) b = .error e) : (raise e u).Inv where
  ibuf_wf := by rwa [raise_ibuf]
  obuf_cells := by simp
  clear_unless_done h := absurd (raise_status e u) h
  no_partial_output _ := raise_olen e u
  payload := payloadAgrees_raise he
  whole_chunks := by simp
  text_of_alphabet _ _ c hc := by simp at hc

/-- The operation that OPL selects keeps the invariant. -/
theorem Inv_exec {s t : State} (hs : s.Inv) (h : exec (fetch s) s = .next t) : t.Inv := by
  rcases exec_next_cases h with ⟨out, u, hout, rfl, hh, hw, hread⟩ | ⟨e, u, he, rfl, hh⟩ <;>
    obtain ⟨hibuf, -⟩ := hostSide_eq hh
  · rw [← fetch_of_hostSide hh] at hout
    exact Inv_complete (hibuf ▸ hs.ibuf_wf) (hw (Memory.wf_of_keys hs.obuf_cells)) hread hout
  · rw [← fetch_of_hostSide hh] at he
    exact Inv_raise (hibuf ▸ hs.ibuf_wf) he

/-- What a turn uses up and draws anew is no part of the invariant. -/
theorem Inv_turn {s : State} (hs : s.Inv) (r : List Turn) : (drawObuf { s with script := r }).Inv :=
  Inv_of_agree hs (by simpa using hs.ibuf_wf) (by simp) (by simp) (by simp) (by simp) (by simp) (by simp) (by simp)
    (by simp)

/-- An accepted START meets the invariant where IBUF is canonical. -/
theorem Inv_acceptStart {s : State} (hi : s.ibuf.wf) (op : BitVec 1) : (acceptStart op s).Inv where
  ibuf_wf := hi
  obuf_cells := rfl
  clear_unless_done _ := ⟨rfl, rfl⟩
  no_partial_output _ := rfl
  payload := ⟨rfl, rfl, rfl⟩
  whole_chunks := by simp
  text_of_alphabet _ _ c hc := by simp at hc

/-- Every state that a reset leaves meets the invariant. -/
theorem Inv_afterReset (n m : Nat) : (State.afterReset n m).Inv where
  ibuf_wf := Memory.wf_nil
  obuf_cells := rfl
  clear_unless_done _ := ⟨rfl, rfl⟩
  no_partial_output _ := rfl
  payload := ⟨rfl, rfl, rfl⟩
  whole_chunks := by simp [State.afterReset]
  text_of_alphabet _ _ c hc := by simp [State.afterReset] at hc

/-- Every action of the world outside keeps the invariant. -/
theorem Inv_hostAct {a : HostAction} {s t : State} (hs : s.Inv) (h : hostAct a s = .next t) : t.Inv := by
  rcases hostAct_next_cases h with ⟨i, b, -, -, rfl⟩ | ⟨n, -, -, rfl⟩ | ⟨op, -, -, rfl⟩ | ⟨op, -, -, rfl⟩ |
    ⟨r, -, rfl⟩ | ⟨-, rfl⟩
  · exact Inv_of_agree hs (Memory.wf_write hs.ibuf_wf i b) rfl rfl rfl rfl rfl rfl rfl rfl
  · exact Inv_of_agree hs hs.ibuf_wf rfl rfl rfl rfl rfl rfl rfl rfl
  · exact Inv_acceptStart hs.ibuf_wf op
  · exact hs
  · exact Inv_of_agree hs hs.ibuf_wf rfl rfl rfl rfl rfl rfl rfl rfl
  · exact Inv_of_agree (Inv_afterReset (s.resetNo + 1) (s.obufNo + 1)) Memory.wf_nil rfl rfl rfl rfl rfl rfl rfl rfl

/-- Settles O52: a turn at rest, the running operation and each action of the world outside keep the invariant. -/
theorem stepKeepsTheInvariant : Obligations.StepKeepsTheInvariant := by
  intro s t hs h
  rcases step_next_cases h with ⟨r, -, -, rfl⟩ | ⟨r, -, -, -, he⟩ | ⟨a, rest, -, ha⟩
  · exact Inv_of_agree hs hs.ibuf_wf rfl rfl rfl rfl rfl rfl rfl rfl
  · have hf : fetch (drawObuf { s with script := r }) = fetch s := by simp [fetch]
    exact Inv_exec (Inv_turn hs r) (hf ▸ he)
  · exact Inv_hostAct (Inv_turn hs rest) ha

/-- Settles O53: `State.reset` is what reset number 0 leaves. -/
theorem resetMeetsTheInvariant : Obligations.ResetMeetsTheInvariant := Inv_afterReset 0 0

/-! ## Widths and capacities (R9, R15, R17, R21, R25) -/

/-- Every number of OBUF's cells fits OLEN (R9). -/
theorem outMax_lt (lenW : Nat) : Config.outMax lenW < 2 ^ Config.olenW lenW := by
  have : 0 < 2 ^ lenW := Nat.two_pow_pos lenW
  unfold Config.outMax Config.inMax Config.olenW
  rw [pow_succ]
  omega

/-- The output of each command fits OBUF where its input fits IBUF (R71, R86). -/
theorem codec_ok_length_le {i : Instr} {b out : List Byte} (h : codec i b = .ok out) {lenW : Nat}
    (hb : b.length ≤ Config.inMax lenW) : out.length ≤ Config.outMax lenW := by
  unfold Config.outMax
  cases i with
  | encode =>
    rw [(codec_encode_ok h).2, encChunks_length]
    omega
  | decode =>
    have : b.length / 5 ≤ Config.inMax lenW / 4 := by omega
    rw [(codec_decode_ok h).2]
    omega

/-- A position that an error reports is below the input's length, and 0 where there is none (R21). -/
theorem raise_errPos_le {i : Instr} {b : List Byte} {e : BlockError} (h : codec i b = .error e) (u : State) :
    (raise e u).errPos ≤ b.length := by
  cases i with
  | encode =>
    obtain ⟨-, rfl⟩ := codec_encode_error h
    exact Nat.zero_le _
  | decode =>
    rcases codec_decode_error h with ⟨-, rfl⟩ | ⟨p, c, rfl, hp, -⟩
    · exact Nat.zero_le _
    · exact hp.le

/-- A number up to IN_MAX has LEN_W bits. -/
theorem lt_of_le_inMax {n lenW : Nat} (h : n ≤ Config.inMax lenW) : n < 2 ^ lenW := by
  have : 0 < 2 ^ lenW := Nat.two_pow_pos lenW
  unfold Config.inMax at h
  omega

/-- Both operations keep a block within its widths and capacities. -/
theorem Fits_exec {lenW : Nat} {i : Instr} {s t : State} (hs : s.Fits lenW) (h : exec i s = .next t) :
    t.Fits lenW := by
  obtain ⟨⟨hibuf, hilen, -, -, -, hscript, -⟩, -⟩ := exec_sameOutside h
  have hin : s.input.length ≤ Config.inMax lenW := by rw [input_length]; exact hs.ilen_le
  have hi : ∀ c ∈ t.ibuf, c.1 < Config.inMax lenW := hibuf ▸ hs.ibuf_lt
  have hl : t.ilen ≤ Config.inMax lenW := hilen ▸ hs.ilen_le
  have hsc : ∀ x ∈ t.script, x.fits lenW = true := hscript ▸ hs.script_fits
  rcases exec_next_cases h with ⟨out, u, hout, rfl, -⟩ | ⟨e, u, he, rfl, -⟩
  · have hle := codec_ok_length_le hout hin
    exact ⟨hl, hi, fun c hc => (Memory.mem_below.1 hc).2.trans_le hle, hle, hle.trans_lt (outMax_lt lenW),
      Nat.two_pow_pos lenW, hsc⟩
  · exact ⟨hl, hi, by simp, by simp, by simp, lt_of_le_inMax ((raise_errPos_le he u).trans hin), hsc⟩

/-- An accepted START clears what it writes and keeps the rest. -/
theorem Fits_acceptStart {lenW : Nat} {s : State} (hs : s.Fits lenW) (op : BitVec 1) :
    (acceptStart op s).Fits lenW :=
  ⟨hs.ilen_le, hs.ibuf_lt, by simp, by simp, by simp, Nat.two_pow_pos lenW, hs.script_fits⟩

/-- Every state that a reset leaves fits every LEN_W. -/
theorem Fits_afterReset (lenW n m : Nat) : (State.afterReset n m).Fits lenW := by
  constructor <;> simp [State.afterReset]

/-- Every action of the world outside that fits keeps a block within its widths and capacities. -/
theorem Fits_hostAct {lenW : Nat} {a : HostAction} {s t : State} (hs : s.Fits lenW) (hfit : a.fits lenW = true)
    (h : hostAct a s = .next t) : t.Fits lenW := by
  rcases hostAct_next_cases h with ⟨i, b, rfl, -, rfl⟩ | ⟨n, rfl, -, rfl⟩ | ⟨op, -, -, rfl⟩ | ⟨op, -, -, rfl⟩ |
    ⟨r, -, rfl⟩ | ⟨-, rfl⟩
  · have hi : i < Config.inMax lenW := of_decide_eq_true hfit
    refine Fits_of_agree hs (fun c hc => ?_) rfl rfl hs.ilen_le rfl fun x hx => hx
    rcases Memory.mem_write hc with rfl | hc
    · exact hi
    · exact hs.ibuf_lt c hc
  · exact Fits_of_agree hs hs.ibuf_lt rfl rfl (of_decide_eq_true hfit) rfl fun x hx => hx
  · exact Fits_acceptStart hs op
  · exact hs
  · exact Fits_of_agree hs hs.ibuf_lt rfl rfl hs.ilen_le rfl fun x hx => hx
  · obtain ⟨hl, hi, ho, hol, holt, hp, -⟩ := Fits_afterReset lenW (s.resetNo + 1) (s.obufNo + 1)
    exact ⟨hl, hi, ho, hol, holt, hp, hs.script_fits⟩

/-- Settles O54: a turn at rest, the running operation and each action of the world outside that fits keep a block within its
widths and capacities. -/
theorem stepKeepsWithinLenW : Obligations.StepKeepsWithinLenW := by
  intro lenW s t hs h
  have turn : ∀ r ⊆ s.script, (drawObuf { s with script := r }).Fits lenW := fun r hr =>
    Fits_of_agree hs (by simpa using hs.ibuf_lt) (by simp) (by simp) (by simpa using hs.ilen_le) (by simp)
      (by rw [drawObuf_script]; exact hr)
  rcases step_next_cases h with ⟨r, hr, -, rfl⟩ | ⟨r, hr, -, -, he⟩ | ⟨a, rest, hscr, ha⟩
  · exact Fits_of_agree hs hs.ibuf_lt rfl rfl hs.ilen_le rfl hr
  · exact Fits_exec (turn r hr) he
  · have hfit : (Turn.host a).fits lenW = true := hs.script_fits _ (by simp [hscr])
    exact Fits_hostAct (turn rest (by simp [hscr])) hfit ha

/-- Settles O55: `State.reset` is what reset number 0 leaves. -/
theorem resetFitsEveryLenW : Obligations.ResetFitsEveryLenW := fun lenW => Fits_afterReset lenW 0 0

/-! ## The input and STATE over a step (R14, R17, R19) -/

/-- The cell that a host write names reads as written. -/
theorem ibufRead_write_same (s : State) (i : Nat) (b : Byte) :
    ibufRead { s with ibuf := s.ibuf.write i b } i = b := by
  simp [ibufRead]

/-- A host write of one cell leaves what every other cell reads as. -/
theorem ibufRead_write_other (s : State) {i j : Nat} (b : Byte) (h : j ≠ i) :
    ibufRead { s with ibuf := s.ibuf.write i b } j = ibufRead s j := by
  simp only [ibufRead, Memory.read?_write_other _ b h]

/-- What a turn uses up and draws anew is no part of IBUF. -/
theorem ibufRead_turn (s : State) (r : List Turn) : ibufRead (drawObuf { s with script := r }) = ibufRead s := by
  funext j
  simp [ibufRead]

/-- Settles O34: an operation leaves IBUF and ILEN, and of the actions of the world outside only the two writes and reset do
not. -/
theorem onlyTheHostChangesTheInput : Obligations.OnlyTheHostChangesTheInput := by
  intro s t h
  rcases step_next_cases h with ⟨r, -, -, rfl⟩ | ⟨r, -, -, -, he⟩ | ⟨a, rest, hscr, ha⟩
  · exact .inl ⟨rfl, rfl⟩
  · obtain ⟨⟨hibuf, hilen, -⟩, -⟩ := exec_sameOutside he
    exact .inl ⟨by simpa using hibuf.symm, by simpa using hilen.symm⟩
  · rcases hostAct_next_cases ha with ⟨i, b, rfl, -, rfl⟩ | ⟨n, rfl, -, rfl⟩ | ⟨op, -, -, rfl⟩ | ⟨op, -, -, rfl⟩ |
      ⟨r, -, rfl⟩ | ⟨rfl, -⟩
    · refine .inr (.inl ⟨i, b, rest, hscr, by simp, ibufRead_write_same _ i b, fun j hj => ?_⟩)
      rw [ibufRead_write_other _ b hj, ibufRead_turn]
    · exact .inr (.inr (.inl ⟨n, rest, hscr, rfl, by simp⟩))
    · exact .inl ⟨by simp, by simp⟩
    · exact .inl ⟨by simp, by simp⟩
    · exact .inl ⟨by simp, by simp⟩
    · exact .inr (.inr (.inr ⟨rest, hscr⟩))

/-- Settles O39: an operation ends DONE, and of the actions of the world outside only an accepted START and reset write
STATE. -/
theorem statusChangesOnlyAsListed : Obligations.StatusChangesOnlyAsListed := by
  intro s t h
  rcases step_next_cases h with ⟨r, -, -, rfl⟩ | ⟨r, -, hb, hm, he⟩ | ⟨a, rest, hscr, ha⟩
  · exact .inl rfl
  · exact .inr (.inr (.inl ⟨hb, (exec_sameOutside he).2, hm⟩))
  · rcases hostAct_next_cases ha with ⟨i, b, -, -, rfl⟩ | ⟨n, -, -, rfl⟩ | ⟨op, rfl, hb, rfl⟩ | ⟨op, -, -, rfl⟩ |
      ⟨r, -, rfl⟩ | ⟨rfl, rfl⟩
    · exact .inl (by simp)
    · exact .inl (by simp)
    · exact .inr (.inl ⟨op, rest, hscr, by simpa using hb, rfl, rfl⟩)
    · exact .inl (by simp)
    · exact .inl (by simp)
    · exact .inr (.inr (.inr ⟨rest, hscr, rfl⟩))

/-! ## The host's moves and the engine's turn, one step each (R18, R26, R28, R29, R113) -/

theorem hostStart_of_ne_busy {s : State} (op : BitVec 1) (h : s.status ≠ .busy) :
    hostStart op s = .next (acceptStart op s) := by
  unfold hostStart
  cases hs : s.status with
  | idle => rfl
  | done => rfl
  | busy => exact absurd hs h

theorem hostStart_of_busy {s : State} (op : BitVec 1) (h : s.status = .busy) : hostStart op s = .next s := by
  unfold hostStart
  rw [h]

theorem hostWriteIbuf_of_ne_busy {s : State} (i : Nat) (b : Byte) (h : s.status ≠ .busy) :
    hostWriteIbuf i b s = .next { s with ibuf := s.ibuf.write i b } := by
  unfold hostWriteIbuf
  cases hs : s.status with
  | idle => rfl
  | done => rfl
  | busy => exact absurd hs h

theorem hostWriteIlen_of_ne_busy {s : State} (n : Nat) (h : s.status ≠ .busy) :
    hostWriteIlen n s = .next { s with ilen := n } := by
  unfold hostWriteIlen
  cases hs : s.status with
  | idle => rfl
  | done => rfl
  | busy => exact absurd hs h

/-- Settles O41: the turn's action is `hostStart`, which accepts unless BUSY. -/
theorem startIsAcceptedUnlessBusy : Obligations.StartIsAcceptedUnlessBusy := by
  intro op rest s hs
  refine ⟨fun h => ?_, fun h => ?_⟩
  · rw [step_of_host_of_ne_busy hs h]
    exact hostStart_of_ne_busy op h
  · rw [step_of_host_of_busy hs h]
    exact hostStart_of_busy op h

/-- A host write to IBUF, as a step: the one cell reads as written, and nothing else changes (R14). -/
theorem step_writeIbuf {s : State} {i : Nat} {b : Byte} {rest : List Turn}
    (hs : s.script = .host (.writeIbuf i b) :: rest) (h : s.status ≠ .busy) :
    ∃ t, step s = .next t ∧ ibufRead t i = b ∧ (∀ j, j ≠ i → ibufRead t j = ibufRead s j) ∧
      { t with ibuf := s.ibuf, script := s.script } = s ∧ t.script = rest := by
  have hstep := (step_of_host_of_ne_busy hs h).trans (hostWriteIbuf_of_ne_busy (s := { s with script := rest }) i b h)
  exact ⟨_, hstep, ibufRead_write_same _ i b, fun j hj => ibufRead_write_other { s with script := rest } b hj, rfl, rfl⟩

/-- A host read, as a step: it records the value, and nothing of the block changes (R37); while BUSY the draw number moves
on. -/
theorem step_read {s : State} {r : HostReg} {rest : List Turn} (hs : s.script = .host (.read r) :: rest) :
    ∃ t, step s = .next t ∧ t.seen = (r, hostValue r t) :: s.seen ∧ t.script = rest ∧
      (s.status ≠ .busy → t.seen = (r, hostValue r s) :: s.seen ∧ { t with seen := s.seen, script := s.script } = s) ∧
      (s.status = .busy → { t with seen := s.seen, script := s.script, obufNo := s.obufNo } = s) := by
  by_cases h : s.status = .busy
  · refine ⟨_, step_of_host_of_busy hs h, ?_, rfl, fun hn => absurd h hn, fun _ => rfl⟩
    cases r <;> rfl
  · refine ⟨_, step_of_host_of_ne_busy hs h, ?_, rfl, fun _ => ⟨?_, rfl⟩, fun hb => absurd hb h⟩ <;> cases r <;> rfl

/-- A cell of IBUF that holds a value reads as that value. -/
theorem ibufRead_of_read? {s : State} {i : Nat} {b : Byte} (h : s.ibuf.read? i = some b) : ibufRead s i = b := by
  rw [ibufRead, h]
  rfl

/-- A cell of OBUF that holds a value reads as that value. -/
theorem obufRead_of_read? {s : State} {i : Nat} {b : Byte} (h : s.obuf.read? i = some b) : obufRead s i = b := by
  rw [obufRead, h]
  rfl

/-- Settles O42: each write and each read as one step, and the value that a read of each register records. -/
theorem hostAccessesDoOnlyTheirAccess : Obligations.HostAccessesDoOnlyTheirAccess := by
  refine ⟨fun i b rest s hs h => step_writeIbuf hs h, fun n rest s hs h => ?_, fun r rest s hs => step_read hs,
    fun s => ?_⟩
  · exact (step_of_host_of_ne_busy hs h).trans (hostWriteIlen_of_ne_busy n h)
  · refine ⟨?_, ?_, ?_, ?_, ?_, ?_, rfl, rfl, rfl, rfl, rfl, fun i => ⟨rfl, fun b => ibufRead_of_read?⟩,
      fun i => ⟨rfl, fun b => obufRead_of_read?⟩⟩ <;> intro h <;> simp [hostValue, h, Status.code, ErrKind.code]

/-- Settles O45: the values are those `State.afterReset` writes out. -/
theorem resetStateHasTheResetValues : Obligations.ResetStateHasTheResetValues :=
  ⟨rfl, rfl, rfl, rfl, rfl, rfl, rfl, fun _ => ⟨rfl, rfl⟩, rfl⟩

/-- The byte that carries OPL decodes to the operation that the engine fetches (R26, R46). -/
theorem fetch_of_decode {s : State} {i : Instr} (h : decode [s.opl.setWidth 8] = .ok (i, [])) : fetch s = i := by
  have hd : ∀ op : BitVec 1, decode [op.setWidth 8] = .ok (decodeOp op, []) := fun op => by
    rcases BitVec.eq_zero_or_eq_one op with rfl | rfl <;> rfl
  rw [hd] at h
  cases h
  rfl

/-- The operand of a START selects the operation it was made from (R46). -/
theorem decodeOp_encodeOp (i : Instr) : decodeOp (encodeOp i) = i := by
  cases i <;> rfl

/-- A loaded command word is an accepted START of its command with the engine's turn next. -/
theorem withFetchWord_of_decode {s : State} {nbits w : Nat} {i : Instr} (h : decodeTableWord nbits w = some i) :
    s.withFetchWord nbits w = { acceptStart (encodeOp i) s with script := .engine :: s.script } := by
  rw [State.withFetchWord, loadCommand, h]

/-- Settles O46: each kind of engine's turn comes down to `engineTurn`, which while BUSY runs the operation that OPL
selects. -/
theorem stepRunsTheDecodedOperation : Obligations.StepRunsTheDecodedOperation := by
  refine ⟨fun s i hi hb => ?_, fun s nbits w i hi => ?_⟩
  · obtain rfl := fetch_of_decode hi
    refine ⟨fun hs => ?_, fun rest hs => ?_, fun rest hs => ?_⟩
    · rw [step_of_no_script hs, engineTurn_of_busy hb]
    · exact (step_of_engine hs).trans (engineTurn_of_busy (s := { s with script := rest }) hb)
    · rw [step_of_wait hs (by simp [hb]), engineTurn_of_busy hb]
  · rw [withFetchWord_of_decode hi, step_of_engine rfl, engineTurn_of_busy rfl]
    show exec (decodeOp (encodeOp i)) _ = _
    rw [decodeOp_encodeOp]

/-- Settles O47: each kind of engine's turn comes down to `engineTurn`, which rests unless BUSY. -/
theorem engineRestsUnlessBusy : Obligations.EngineRestsUnlessBusy := by
  refine fun s h => ⟨fun hs => ?_, fun rest hs => ?_⟩
  · rw [step_of_no_script hs, engineTurn_of_ne_busy h]
  · exact (step_of_engine hs).trans (engineTurn_of_ne_busy (s := { s with script := rest }) h)

end Sys2Proof.Machine

/-! # Proofs: bytes and the chunk value -/

namespace Sys2Proof.Machine

/-- After D6 the cell of offset `j` in the chunk's four holds the byte of offset `j` of V (R30). -/
theorem decStore_read?_offset (s : State) (j : Fin 4) :
    (decStore [0, 1, 2, 3] s).obuf.read? (4 * s.ch + j.val) = some (byteOfWord s.v j) := by
  have hj : 4 * s.ch ≤ 4 * s.ch + j.val ∧ 4 * s.ch + j.val < 4 * s.ch + 4 := by omega
  have hget : (bytesOfWord s.v)[j.val]? = some (byteOfWord s.v j) := by fin_cases j <;> rfl
  rw [decStore_obuf_read?, if_pos hj, Nat.add_sub_cancel_left, hget]

/-- The four bytes of a value are its digits in base 256, most significant first (R30). -/
theorem byteOfWord_digits (v : Word) :
    (byteOfWord v 0).toNat = v.toNat / 2 ^ 24 % 2 ^ 8 ∧ (byteOfWord v 1).toNat = v.toNat / 2 ^ 16 % 2 ^ 8 ∧
      (byteOfWord v 2).toNat = v.toNat / 2 ^ 8 % 2 ^ 8 ∧ (byteOfWord v 3).toNat = v.toNat / 2 ^ 0 % 2 ^ 8 :=
  ⟨byteOfWord_toNat v 0, byteOfWord_toNat v 1, byteOfWord_toNat v 2, byteOfWord_toNat v 3⟩

/-- Splitting undoes joining: each byte, below 256, is the digit of its own weight. -/
theorem bytesOfWord_wordOfBytes (b0 b1 b2 b3 : Byte) : bytesOfWord (wordOfBytes b0 b1 b2 b3) = [b0, b1, b2, b3] := by
  have hw := wordOfBytes_toNat b0 b1 b2 b3
  obtain ⟨d0, d1, d2, d3⟩ := byteOfWord_digits (wordOfBytes b0 b1 b2 b3)
  simp only [bytesOfWord, List.cons.injEq, and_true]
  refine ⟨?_, ?_, ?_, ?_⟩ <;> bv_omega

/-- Joining undoes splitting: a value below 2^32 is the sum of its four digits by weight. -/
theorem wordOfBytes_byteOfWord (v : Word) :
    wordOfBytes (byteOfWord v 0) (byteOfWord v 1) (byteOfWord v 2) (byteOfWord v 3) = v := by
  have hv := v.isLt
  have hw := wordOfBytes_toNat (byteOfWord v 0) (byteOfWord v 1) (byteOfWord v 2) (byteOfWord v 3)
  obtain ⟨d0, d1, d2, d3⟩ := byteOfWord_digits v
  exact BitVec.eq_of_toNat_eq (by omega)

/-- Settles O9: the load is `wordOfBytes` of the chunk's four cells, the store puts the byte of each offset into its cell,
and the two are inverse to each other. -/
theorem chunkValuesAreBigEndian : Obligations.ChunkValuesAreBigEndian := by
  refine ⟨fun s => ?_, fun s => ?_, bytesOfWord_wordOfBytes, wordOfBytes_byteOfWord⟩
  · rw [encLoad_v, wordOfBytes_toNat]
    ring
  · exact ⟨decStore_read?_offset s 0, decStore_read?_offset s 1, decStore_read?_offset s 2, decStore_read?_offset s 3⟩

end Sys2Proof.Machine

/-! # Proofs: the command format -/

namespace Sys2Proof.Machine

/-- The operation that an operand selects is encoded by that operand (R46). -/
theorem encodeOp_decodeOp (op : BitVec 1) : encodeOp (decodeOp op) = op := by
  rcases BitVec.eq_zero_or_eq_one op with rfl | rfl <;> rfl

theorem commandByteWellFormed_iff (b : Byte) : commandByteWellFormed b = true ↔ b.toNat < 2 := decide_eq_true_iff

/-- A byte with no bit above bit 0 decodes to the operation that bit 0 selects (R46). -/
theorem decode_cons_of_lt {b : Byte} (h : b.toNat < 2) (rest : List Byte) :
    decode (b :: rest) = .ok (decodeOp (b.setWidth 1), rest) :=
  if_pos ((commandByteWellFormed_iff b).2 h)

/-- A byte with a bit set above bit 0 is no command (R46; log entry 5). -/
theorem decode_cons_of_le {b : Byte} (h : 2 ≤ b.toNat) (rest : List Byte) :
    decode (b :: rest) = .error (.strayBits b) :=
  if_neg fun hb => absurd ((commandByteWellFormed_iff b).1 hb) (Nat.not_lt.2 h)

/-- A command's byte decodes to the command, whatever follows it (R46). -/
theorem decode_encode_append (i : Instr) (rest : List Byte) : decode (encode i ++ rest) = .ok (i, rest) := by
  cases i <;> rfl

/-- A command is its own table word, a single byte. -/
theorem decodeTableWord_encodeOp (i : Instr) : decodeTableWord 8 (encodeOp i).toNat = some i := by
  cases i <;> rfl

/-- No bit of a byte that decodes is dropped: the operation's byte is that byte (R46). -/
theorem encode_decodeOp_of_lt {b : Byte} (h : b.toNat < 2) : encode (decodeOp (b.setWidth 1)) = [b] := by
  have hb : (b.setWidth 1).setWidth 8 = b := by
    apply BitVec.eq_of_toNat_eq
    rw [BitVec.toNat_setWidth, BitVec.toNat_setWidth]
    omega
  rw [encode, encodeOp_decodeOp, hb]

/-- Bytes that decode are the command's byte and the rest. -/
theorem eq_encode_append_of_decode {bs rest : List Byte} {i : Instr} (h : decode bs = .ok (i, rest)) :
    bs = encode i ++ rest := by
  cases bs with
  | nil => cases h
  | cons b bs =>
    rcases Nat.lt_or_ge b.toNat 2 with hb | hb
    · rw [decode_cons_of_lt hb] at h
      cases h
      rw [encode_decodeOp_of_lt hb, List.singleton_append]
    · rw [decode_cons_of_le hb] at h
      cases h

/-- Settles O1: the two equations are R46's table, and a one-bit operand is 0 or 1. -/
theorem commandBitSelectsTheOperation : Obligations.CommandBitSelectsTheOperation :=
  ⟨rfl, rfl, BitVec.eq_zero_or_eq_one, decodeOp_encodeOp⟩

/-- Settles O2: the two words are the encodings of the two commands, and a byte from 2 on has a stray bit. -/
theorem commandWordsDecode : Obligations.CommandWordsDecode :=
  ⟨decode_encode_append .encode [], decode_encode_append .decode [], decodeTableWord_encodeOp .encode,
    decodeTableWord_encodeOp .decode, rfl, fun _ rest h => decode_cons_of_le h rest⟩

/-- Settles O3: one direction goes by the command, the other by the first byte. -/
theorem decodeAndEncodeAgree : Obligations.DecodeAndEncodeAgree :=
  ⟨fun i rest _ => decode_encode_append i rest, fun _ _ _ => eq_encode_append_of_decode⟩

end Sys2Proof.Machine

/-! # Proofs: the invalid character codes -/

namespace Sys2Proof.Machine

/-- The codes for which RLOOK reads no cell of REV (R60). -/
theorem rlook_eq_invalidOutOfRange_iff (c : Byte) :
    rlook c = .invalidOutOfRange ↔ c.toNat ≤ 0x20 ∨ 0x7E ≤ c.toNat := by
  unfold rlook
  split
  · next h =>
    refine iff_of_false (fun hc => ?_) (by omega)
    dsimp only at hc
    split at hc <;> cases hc
  · next h => exact iff_of_true rfl (by omega)

/-- The codes whose cell of REV holds the sentinel (R60). -/
theorem rlook_eq_invalidInRange_iff_revRom (c : Byte) :
    rlook c = .invalidInRange ↔ 0x21 ≤ c.toNat ∧ revRom[c.toNat - 0x21]? = some 0xFF := by
  unfold rlook
  split
  · next h =>
    have hlt : c.toNat - 0x21 < revRom.length := by rw [revRom_length]; omega
    rw [List.getElem?_eq_getElem hlt, Option.some_inj, and_iff_right h.1]
    dsimp only
    split
    · next ht => exact iff_of_true rfl ht
    · next ht => exact iff_of_false Lookup.noConfusion ht
  · next h =>
    refine iff_of_false Lookup.noConfusion fun ⟨hle, hc⟩ => ?_
    have hlt := (List.getElem?_eq_some_iff.1 hc).1
    rw [revRom_length] at hlt
    omega

/-- The cells of REV that hold the sentinel (R45). -/
theorem revRom_getElem?_eq_sentinel_iff (i : Nat) :
    revRom[i]? = some 0xFF ↔ i ∈ [1, 6, 11, 26, 59, 62, 63, 91] := by
  rcases Nat.lt_or_ge i 93 with h | h
  · revert i
    decide
  · have hlen : revRom.length ≤ i := by rwa [revRom_length]
    rw [List.getElem?_eq_none hlen]
    refine iff_of_false nofun fun hi => ?_
    simp only [List.mem_cons, List.not_mem_nil, or_false] at hi
    omega

/-- The codes of R54's list: the offset of a sentinel's cell, counted from 0x21. -/
theorem rlook_eq_invalidInRange_iff (c : Byte) :
    rlook c = .invalidInRange ↔ c ∈ ([0x22, 0x27, 0x2C, 0x3B, 0x5C, 0x5F, 0x60, 0x7C] : List Byte) := by
  rw [rlook_eq_invalidInRange_iff_revRom, revRom_getElem?_eq_sentinel_iff]
  simp only [List.mem_cons, List.not_mem_nil, or_false]
  bv_omega

/-- A code gives a digit where neither kind of invalid does (R54). -/
theorem isDigit_rlook_iff (c : Byte) :
    (rlook c).isDigit = true ↔ rlook c ≠ .invalidInRange ∧ rlook c ≠ .invalidOutOfRange := by
  cases rlook c <;> simp [Lookup.isDigit]

/-- The codes that give a digit, as numbers: those of the range that R54 does not list. -/
theorem isDigit_rlook_ofNat {n : Nat} (hn : n < 256) :
    (rlook (BitVec.ofNat 8 n)).isDigit =
      decide (0x20 < n ∧ n < 0x7E ∧ n ∉ [0x22, 0x27, 0x2C, 0x3B, 0x5C, 0x5F, 0x60, 0x7C]) := by
  rw [Bool.eq_iff_iff, decide_eq_true_iff, isDigit_rlook_iff, ne_eq, ne_eq, rlook_eq_invalidInRange_iff,
    rlook_eq_invalidOutOfRange_iff]
  simp only [List.mem_cons, List.not_mem_nil, or_false]
  bv_omega

/-- As many codes give a digit as there are digits (R54). -/
theorem length_filter_isDigit :
    ((List.range 256).filter fun n => (rlook (BitVec.ofNat 8 n)).isDigit).length = 85 := by
  rw [List.filter_congr fun n hn => isDigit_rlook_ofNat (List.mem_range.1 hn)]
  decide

/-- Settles O8: the sentinels of REV, the range test of RLOOK, and the count of the digits, which leaves 171 of 256. -/
theorem invalidCodesAreThreeGroups : Obligations.InvalidCodesAreThreeGroups := by
  refine ⟨rlook_eq_invalidInRange_iff, rlook_eq_invalidOutOfRange_iff, length_filter_isDigit, ?_⟩
  have h := List.length_eq_length_filter_add (l := List.range 256) fun n => (rlook (BitVec.ofNat 8 n)).isDigit
  rw [length_filter_isDigit, List.length_range] at h
  omega

end Sys2Proof.Machine

/-! # Proofs: the codes of the status fields -/

namespace Sys2Proof.Machine

/-- No value of STATE has code 3 (R51). -/
theorem Status.code_ne_three (x : Status) : x.code ≠ 3 := by
  cases x <;> decide

/-- No value of ERR has code 3 (R52). -/
theorem ErrKind.code_ne_three (e : ErrKind) : e.code ≠ 3 := by
  cases e <;> decide

/-- NONE is the value of ERR with neither error's code (R52). -/
theorem ErrKind.eq_none_iff (e : ErrKind) : e = .none ↔ e.code ≠ 1 ∧ e.code ≠ 2 := by
  cases e <;> decide

theorem ErrKind.isInvalidLength_iff (e : ErrKind) : e.isInvalidLength = true ↔ e.code = 1 := beq_iff_eq

theorem ErrKind.isInvalidByte_iff (e : ErrKind) : e.isInvalidByte = true ↔ e.code = 2 := beq_iff_eq

/-- Settles O37: each predicate is a test of the code, and ERR has one code at a time. -/
theorem errorPredicatesClassify : Obligations.ErrorPredicatesClassify := by
  refine fun e => ⟨e.isInvalidLength_iff, e.isInvalidByte_iff, fun ⟨hl, hb⟩ => ?_, ?_⟩
  · have hcodes : (1 : BitVec 2) = 2 := (e.isInvalidLength_iff.1 hl).symm.trans (e.isInvalidByte_iff.1 hb)
    exact absurd hcodes (by decide)
  · rw [← Bool.not_eq_true, ← Bool.not_eq_true, ErrKind.isInvalidLength_iff, ErrKind.isInvalidByte_iff,
      ErrKind.eq_none_iff]

/-- Settles O38: the codes are those written out at the two types, and none of them is 3. -/
theorem statusCodes : Obligations.StatusCodes :=
  ⟨⟨rfl, rfl, rfl, Status.code_ne_three⟩, rfl, rfl, rfl, ErrKind.code_ne_three⟩

end Sys2Proof.Machine

/-! # Proofs: the two tables -/

namespace Sys2Proof.Machine

/-! ## The lookups as reads of the ROMs (R59, R60) -/

theorem alphaRom_getElem?_eq_alook (d : Digit) : alphaRom[d.val]? = some (alook d) :=
  List.getElem?_eq_getElem _

/-- A code in the range of the table has a cell of REV (R60). -/
theorem exists_revRom_of_range {c : Byte} (hle : 0x21 ≤ c.toNat) (hge : c.toNat ≤ 0x7D) :
    ∃ t, revRom[c.toNat - 0x21]? = some t :=
  ⟨_, List.getElem?_eq_getElem (by rw [revRom_length]; omega)⟩

/-- A code that gives a digit is in the range of the table (R60). -/
theorem range_of_rlook_eq_digit {c : Byte} {v : Digit} (h : rlook c = .digit v) :
    0x21 ≤ c.toNat ∧ c.toNat ≤ 0x7D := by
  have hrange : ¬(c.toNat ≤ 0x20 ∨ 0x7E ≤ c.toNat) := by
    rw [← rlook_eq_invalidOutOfRange_iff, h]
    exact Lookup.noConfusion
  omega

/-! ## The tables against each other (R62) -/

/-- Each digit's character leads back to the digit. -/
theorem rlook_alook : ∀ v : Digit, rlook (alook v) = .digit v := by decide

/-- ALPHA read at REV's cells, each paired with its index: 93 reads, of which the sentinels are left out. -/
theorem alphaRom_of_mem_revRom_zipIdx : ∀ e ∈ revRom.zipIdx, e.1 ≠ 0xFF →
    alphaRom[e.1.toNat]? = some (BitVec.ofNat 8 (e.2 + 0x21)) := by decide

/-- A cell of REV that is not the sentinel holds the index in ALPHA of the cell's code. -/
theorem alphaRom_of_revRom {c t : Byte} (hle : 0x21 ≤ c.toNat) (ht : revRom[c.toNat - 0x21]? = some t)
    (hne : t ≠ 0xFF) : alphaRom[t.toNat]? = some c := by
  have h := alphaRom_of_mem_revRom_zipIdx _ (List.mk_mem_zipIdx_iff_getElem?.2 ht) hne
  rwa [Nat.sub_add_cancel hle, BitVec.ofNat_toNat, BitVec.setWidth_eq] at h

/-- What a cell of REV holds besides the sentinel is a digit, and RLOOK answers it (R60, R64). -/
theorem rlook_of_revRom_digit {c t : Byte} (hle : 0x21 ≤ c.toNat) (ht : revRom[c.toNat - 0x21]? = some t)
    (hne : t ≠ 0xFF) : ∃ d : Digit, d.val = t.toNat ∧ rlook c = .digit d := by
  have hlt := (List.getElem?_eq_some_iff.1 (alphaRom_of_revRom hle ht hne)).1
  rw [alphaRom_length] at hlt
  obtain ⟨hi, rfl⟩ := List.getElem?_eq_some_iff.1 ht
  rw [revRom_length] at hi
  refine ⟨Fin.ofNat 85 _, Nat.mod_eq_of_lt hlt, ?_⟩
  rw [rlook, dif_pos ⟨hle, by omega⟩]
  exact if_neg hne

/-- A code's digit leads back to the code. -/
theorem alook_of_rlook_eq_digit {c : Byte} {v : Digit} (h : rlook c = .digit v) : alook v = c := by
  obtain ⟨hle, hge⟩ := range_of_rlook_eq_digit h
  obtain ⟨t, ht⟩ := exists_revRom_of_range hle hge
  have hne : t ≠ 0xFF := by
    rintro rfl
    exact Lookup.noConfusion (h.symm.trans ((rlook_eq_invalidInRange_iff_revRom c).2 ⟨hle, ht⟩))
  obtain ⟨d, hd, hr⟩ := rlook_of_revRom_digit hle ht hne
  have hvd : v = d := Lookup.digit.inj (h.symm.trans hr)
  rw [← Option.some_inj, ← alphaRom_getElem?_eq_alook, hvd, hd]
  exact alphaRom_of_revRom hle ht hne

/-- R62's first equation. -/
theorem rlook_eq_digit_iff (c : Byte) (v : Digit) : rlook c = .digit v ↔ alook v = c := by
  refine ⟨alook_of_rlook_eq_digit, ?_⟩
  rintro rfl
  exact rlook_alook v

theorem alook_injective : Function.Injective alook := fun d e h =>
  Lookup.digit.inj (by rw [← rlook_alook d, h, rlook_alook])

/-! ## The construction's bounds (R61) -/

/-- The construction's offset (R61): the smallest code of ALPHA. -/
theorem alphaRom_foldl_min : (alphaRom.map BitVec.toNat).foldl Nat.min 255 = 0x21 := by decide +kernel

/-- The construction's top (R61): the largest code of ALPHA. -/
theorem alphaRom_foldl_max : (alphaRom.map BitVec.toNat).foldl Nat.max 0 = 0x7D := by decide +kernel

/-! ## The statements -/

/-- Settles O4: RLOOK undoes ALOOK, which gives injectivity and the range; the three entries are read off ALPHA. -/
theorem alphabetLookupReadsTheRom : Obligations.AlphabetLookupReadsTheRom :=
  ⟨alphaRom_getElem?_eq_alook, rfl, rfl, rfl, alook_injective, fun d => range_of_rlook_eq_digit (rlook_alook d)⟩

/-- Settles O5: outside the range by the range test, inside it by what the cell holds. -/
theorem reverseLookupFollowsItsContract : Obligations.ReverseLookupFollowsItsContract := by
  refine fun c => ⟨fun h => (rlook_eq_invalidOutOfRange_iff c).2 (by omega), fun ⟨hle, hge⟩ => ?_⟩
  obtain ⟨t, ht⟩ := exists_revRom_of_range hle hge
  refine ⟨t, ht, ?_, rlook_of_revRom_digit hle ht⟩
  rintro rfl
  exact (rlook_eq_invalidInRange_iff_revRom c).2 ⟨hle, ht⟩

/-- Settles O6: with offset and top known, the 85 stores are carried out on 93 sentinels. -/
theorem reverseTableIsTheConstruction : Obligations.ReverseTableIsTheConstruction := by
  refine ⟨?_, revRom_length⟩
  rw [buildRev, alphaRom_foldl_min, alphaRom_foldl_max]
  decide

/-- Settles O7: each lookup undoes the other. -/
theorem lookupsAreInverse : Obligations.LookupsAreInverse :=
  ⟨rlook_eq_digit_iff, rlook_alook⟩

end Sys2Proof.Machine

/-! # Proofs: ENCODE, the digits of a chunk and the engine's run -/

namespace Sys2Proof.Machine

/-! ## The digit step (R70) -/

/-- V is below 2^32, so its quotient by 85 is at most 50529027 (R70). -/
theorem quotWord_toNat_le (v : Word) : (quotWord v).toNat ≤ 50529027 := by
  have := v.isLt
  rw [quotWord_toNat]
  omega

/-- Settles O10: DIG[K] is the cell that the step sets, and the other fields are written by no part of it. -/
theorem digitStepDividesBy85 : Obligations.DigitStepDividesBy85 := by
  refine fun k s => ⟨?_, quotWord_toNat s.v, quotWord_toNat_le s.v, rfl, fun j hj => ?_, rfl⟩
  · simp
  · have hne : k.val ≠ j.val := fun h => hj (Fin.ext h.symm)
    simp [Vector.getElem_set_ne, hne]

/-! ## The five characters of a chunk (R73, R74) -/

/-- The base-85 digit of weight 85^n of a chunk value (R74). -/
def digitOfWord (n : Nat) (v : Word) : Digit := ⟨v.toNat / 85 ^ n % 85, Nat.mod_lt _ (by decide)⟩

theorem digitOfWord_zero (v : Word) : digitOfWord 0 v = remDigit v :=
  Fin.ext (by simp [digitOfWord])

/-- One quotient step moves every digit down by one place. -/
theorem digitOfWord_succ (n : Nat) (v : Word) : digitOfWord (n + 1) v = digitOfWord n (quotWord v) :=
  Fin.ext (by simp [digitOfWord, pow_succ', Nat.div_div_eq_div_mul])

/-- The characters that the digit steps give, last first, are those of the digits by weight, greatest first (R73). -/
theorem encChunk_eq_digits (b0 b1 b2 b3 : Byte) :
    encChunk b0 b1 b2 b3 =
      [4, 3, 2, 1, 0].map fun n => alook (digitOfWord n (wordOfBytes b0 b1 b2 b3)) := by
  simp only [List.map_cons, List.map_nil, digitOfWord_succ, digitOfWord_zero]
  rfl

/-- A value below 2^32 is below 85^5, so its five digits give it back (R74). -/
theorem digitsValue_digitOfWord (v : Word) :
    digitsValue (digitOfWord 4 v) (digitOfWord 3 v) (digitOfWord 2 v) (digitOfWord 1 v) (digitOfWord 0 v) =
      v.toNat := by
  have := v.isLt
  simp only [digitsValue, digitOfWord]
  omega

/-- The most significant digit of a value below 2^32 (R74). -/
theorem digitOfWord_four_le (v : Word) : (digitOfWord 4 v).val ≤ 82 := by
  have := v.isLt
  simp only [digitOfWord]
  omega

/-- Settles O12: the digits are those of `digitOfWord`, by falling weight. -/
theorem encodedDigitsArePositional : Obligations.EncodedDigitsArePositional := fun b0 b1 b2 b3 =>
  ⟨_, _, _, _, _, encChunk_eq_digits b0 b1 b2 b3, rfl, rfl, rfl, by simp [digitOfWord], by simp [digitOfWord],
    digitsValue_digitOfWord _, digitOfWord_four_le _⟩

/-! ## The image of enc_chunk (R50, R56, R74) -/

/-- The value of five digits is that of a base-85 numeral, whose least digit stands last in the chunk (R50). -/
theorem digitsValue_eq_ofDigits (d0 d1 d2 d3 d4 : Digit) :
    digitsValue d0 d1 d2 d3 d4 = Nat.ofDigits 85 ([d4, d3, d2, d1, d0].map Fin.val) := by
  simp only [digitsValue, List.map_cons, List.map_nil, Nat.ofDigits_cons, Nat.ofDigits_nil]
  omega

/-- Five digits are determined by their value (R50). -/
theorem digitsValue_inj {d0 d1 d2 d3 d4 e0 e1 e2 e3 e4 : Digit}
    (h : digitsValue d0 d1 d2 d3 d4 = digitsValue e0 e1 e2 e3 e4) :
    d0 = e0 ∧ d1 = e1 ∧ d2 = e2 ∧ d3 = e3 ∧ d4 = e4 := by
  rw [digitsValue_eq_ofDigits, digitsValue_eq_ofDigits] at h
  have hlist := Nat.ofDigits_inj_of_len_eq (by decide) (by simp) (by simp) (by simp) h
  simp only [List.map_cons, List.map_nil, List.cons.injEq, and_true, Fin.val_inj] at hlist
  obtain ⟨h4, h3, h2, h1, h0⟩ := hlist
  exact ⟨h0, h1, h2, h3, h4⟩

/-- Five digits are the text of four bytes where both have the same value. -/
theorem encChunk_eq_alook_iff {b0 b1 b2 b3 : Byte} {d0 d1 d2 d3 d4 : Digit} :
    encChunk b0 b1 b2 b3 = [alook d0, alook d1, alook d2, alook d3, alook d4] ↔
      digitsValue d0 d1 d2 d3 d4 = (wordOfBytes b0 b1 b2 b3).toNat := by
  rw [encChunk_eq_digits, ← digitsValue_digitOfWord]
  simp only [List.map_cons, List.map_nil, List.cons.injEq, and_true, alook_injective.eq_iff]
  constructor
  · rintro ⟨rfl, rfl, rfl, rfl, rfl⟩
    rfl
  · exact fun h => digitsValue_inj h.symm

/-- Different bytes have different values, hence different texts (R74). -/
theorem encChunk_inj {b0 b1 b2 b3 a0 a1 a2 a3 : Byte} (h : encChunk b0 b1 b2 b3 = encChunk a0 a1 a2 a3) :
    b0 = a0 ∧ b1 = a1 ∧ b2 = a2 ∧ b3 = a3 := by
  have hv := encChunk_eq_alook_iff.1 (h.trans (encChunk_eq_digits a0 a1 a2 a3))
  have hw : wordOfBytes b0 b1 b2 b3 = wordOfBytes a0 a1 a2 a3 :=
    BitVec.eq_of_toNat_eq (hv.symm.trans (digitsValue_digitOfWord _))
  have hbytes := congrArg bytesOfWord hw
  rw [bytesOfWord_wordOfBytes, bytesOfWord_wordOfBytes] at hbytes
  simpa using hbytes

/-- Every value below 2^32 is that of some four bytes (R30). -/
theorem exists_wordOfBytes_toNat {n : Nat} (h : n < 2 ^ 32) :
    ∃ b0 b1 b2 b3 : Byte, (wordOfBytes b0 b1 b2 b3).toNat = n := by
  have hw := congrArg BitVec.toNat (wordOfBytes_byteOfWord (BitVec.ofNat 32 n))
  rw [BitVec.toNat_ofNat, Nat.mod_eq_of_lt h] at hw
  exact ⟨_, _, _, _, hw⟩

/-- Characters of digits have the digits' value (R50). -/
theorem chunkValue?_alook (d0 d1 d2 d3 d4 : Digit) :
    chunkValue? (alook d0) (alook d1) (alook d2) (alook d3) (alook d4) = some (digitsValue d0 d1 d2 d3 d4) := by
  simp [chunkValue?, rlook_alook]

/-- Characters that have a value are those of five digits (R50). -/
theorem exists_digits_of_chunkValue? {c0 c1 c2 c3 c4 : Byte} {n : Nat} (h : chunkValue? c0 c1 c2 c3 c4 = some n) :
    ∃ d0 d1 d2 d3 d4, c0 = alook d0 ∧ c1 = alook d1 ∧ c2 = alook d2 ∧ c3 = alook d3 ∧ c4 = alook d4 := by
  unfold chunkValue? at h
  split at h
  · next d0 d1 d2 d3 d4 h0 h1 h2 h3 h4 =>
    exact ⟨d0, d1, d2, d3, d4, (alook_of_rlook_eq_digit h0).symm, (alook_of_rlook_eq_digit h1).symm,
      (alook_of_rlook_eq_digit h2).symm, (alook_of_rlook_eq_digit h3).symm, (alook_of_rlook_eq_digit h4).symm⟩
  · cases h

theorem canonical_iff (c0 c1 c2 c3 c4 : Byte) :
    canonical c0 c1 c2 c3 c4 = true ↔ ∃ n, chunkValue? c0 c1 c2 c3 c4 = some n ∧ n < 2 ^ 32 := by
  unfold canonical
  cases chunkValue? c0 c1 c2 c3 c4 <;> simp

/-- A canonical chunk does not overflow (R56). -/
theorem overflows_of_canonical {c0 c1 c2 c3 c4 : Byte} (h : canonical c0 c1 c2 c3 c4 = true) :
    overflows c0 c1 c2 c3 c4 = false := by
  obtain ⟨n, hn, hlt⟩ := (canonical_iff c0 c1 c2 c3 c4).1 h
  simpa [overflows, hn] using hlt

/-- The canonical chunks are the texts of four bytes (R74). -/
theorem canonical_iff_exists_encChunk (c0 c1 c2 c3 c4 : Byte) :
    canonical c0 c1 c2 c3 c4 = true ↔ ∃ b0 b1 b2 b3, encChunk b0 b1 b2 b3 = [c0, c1, c2, c3, c4] := by
  rw [canonical_iff]
  constructor
  · rintro ⟨n, hn, hlt⟩
    obtain ⟨d0, d1, d2, d3, d4, rfl, rfl, rfl, rfl, rfl⟩ := exists_digits_of_chunkValue? hn
    obtain ⟨b0, b1, b2, b3, hb⟩ := exists_wordOfBytes_toNat hlt
    rw [chunkValue?_alook, Option.some_inj] at hn
    exact ⟨b0, b1, b2, b3, encChunk_eq_alook_iff.2 (hn.trans hb.symm)⟩
  · rintro ⟨b0, b1, b2, b3, hb⟩
    rw [encChunk_eq_digits] at hb
    simp only [List.map_cons, List.map_nil, List.cons.injEq, and_true] at hb
    obtain ⟨rfl, rfl, rfl, rfl, rfl⟩ := hb
    rw [chunkValue?_alook, digitsValue_digitOfWord]
    exact ⟨_, rfl, (wordOfBytes b0 b1 b2 b3).isLt⟩

/-- Settles O13: a chunk and its text have the same value, and each is determined by it. -/
theorem encodedChunksAreTheCanonicalOnes : Obligations.EncodedChunksAreTheCanonicalOnes :=
  ⟨fun _ _ _ _ _ _ _ _ => encChunk_inj, canonical_iff_exists_encChunk, fun b0 b1 b2 b3 c0 c1 c2 c3 c4 h =>
    overflows_of_canonical ((canonical_iff_exists_encChunk c0 c1 c2 c3 c4).2 ⟨b0, b1, b2, b3, h⟩)⟩

/-! ## Chunks on their own (R68, R75, R80) -/

/-- Settles O21: by the chunks, and by the five characters of each. -/
theorem encodedTextIsOfTheAlphabet : Obligations.EncodedTextIsOfTheAlphabet := fun _ _ => mem_encChunks

/-- The text of whole chunks comes before that of what follows them (R68). -/
theorem encChunks_append : ∀ a b : List Byte, a.length % 4 = 0 → encChunks (a ++ b) = encChunks a ++ encChunks b
  | b0 :: b1 :: b2 :: b3 :: rest, b, h => by
    have ih := encChunks_append rest b (by simp only [List.length_cons] at h; omega)
    simp only [List.cons_append, encChunks, ih, List.append_assoc]
  | [], _, _ => rfl
  | [_], _, h => by cases h
  | [_, _], _, h => by cases h
  | [_, _, _], _, h => by cases h

/-- A valid chunk puts its bytes before those of the chunks after it (R80). -/
theorem decChunks_of_good {c0 c1 c2 c3 c4 : Byte} {w : Word} (c : Nat) (rest : List Byte)
    (h : decChunk c0 c1 c2 c3 c4 = .good w) :
    decChunks c (c0 :: c1 :: c2 :: c3 :: c4 :: rest) = (decChunks (c + 1) rest).map (bytesOfWord w ++ ·) := by
  rw [decChunks, h]
  cases decChunks (c + 1) rest <;> rfl

/-- A text that decodes has a first chunk that is valid. -/
theorem decChunk_good_of_decChunks_ok {c0 c1 c2 c3 c4 : Byte} {c : Nat} {rest out : List Byte}
    (h : decChunks c (c0 :: c1 :: c2 :: c3 :: c4 :: rest) = .ok out) : ∃ w, decChunk c0 c1 c2 c3 c4 = .good w := by
  rw [decChunks] at h
  cases hd : decChunk c0 c1 c2 c3 c4 with
  | good w => exact ⟨w, rfl⟩
  | bad k ch =>
    rw [hd] at h
    cases h

/-- What follows whole chunks that decode is decoded on its own, at its chunk number in the whole input (R80). -/
theorem decChunks_append : ∀ (a b : List Byte) (c : Nat) (out : List Byte), a.length % 5 = 0 →
    decChunks c a = .ok out → decChunks c (a ++ b) = (decChunks (c + a.length / 5) b).map (out ++ ·)
  | c0 :: c1 :: c2 :: c3 :: c4 :: rest, b, c, out, hl, h => by
    obtain ⟨w, hw⟩ := decChunk_good_of_decChunks_ok h
    rw [decChunks_of_good c rest hw] at h
    cases hr : decChunks (c + 1) rest with
    | error e =>
      rw [hr] at h
      cases h
    | ok more =>
      rw [hr] at h
      cases h
      have hc : c + (c0 :: c1 :: c2 :: c3 :: c4 :: rest).length / 5 = c + 1 + rest.length / 5 := by
        simp only [List.length_cons]
        omega
      have ih := decChunks_append rest b (c + 1) more (by simp only [List.length_cons] at hl; omega) hr
      simp only [List.cons_append, decChunks_of_good c (rest ++ b) hw, ih, hc]
      cases decChunks (c + 1 + rest.length / 5) b <;> simp [Except.map]
  | [], b, c, _, _, h => by
    cases h
    simp only [List.nil_append, List.length_nil, Nat.zero_div, Nat.add_zero]
    cases decChunks c b <;> rfl
  | [_], _, _, _, hl, _ => by cases hl
  | [_, _], _, _, _, hl, _ => by cases hl
  | [_, _, _], _, _, _, hl, _ => by cases hl
  | [_, _, _, _], _, _, _, hl, _ => by cases hl

/-- Settles O20: by the chunks of the first part, in both directions. -/
theorem chunksAreTransformedIndependently : Obligations.ChunksAreTransformedIndependently := by
  refine ⟨encChunks_append, fun c a b out hl h => ?_⟩
  rw [decChunks_append a b c out hl h]
  cases decChunks (c + a.length / 5) b <;> rfl

/-! ## The run of ENCODE (R65, R66, R71) -/

/-- Settles O22: the completion is that of the function on the input, with its text or with its one error. -/
theorem encodeComputesEncode : Obligations.EncodeComputesEncode := by
  intro s
  cases hr : z85Encode s.input with
  | ok text =>
    obtain ⟨u, hu, -, -, hread⟩ := exec_of_codec_ok (i := .encode) hr
    exact ⟨_, hu, rfl, complete_result rfl hread, rfl, complete_read? rfl hread, rfl, rfl, rfl, rfl⟩
  | error e =>
    obtain ⟨-, rfl⟩ := codec_encode_error hr
    obtain ⟨u, hu, -⟩ := exec_of_codec_error (i := .encode) hr
    exact ⟨_, hu, rfl, rfl, rfl, rfl, rfl, rfl, rfl, rfl⟩

/-- A length that is no multiple of 4 raises at once (R66). -/
theorem exec_encode_of_bad_length {s : State} (h : s.ilen % 4 ≠ 0) :
    exec .encode s = .next (raise (.invalidLength 4) s) := by
  rcases execEncode_cases s with ⟨-, h'⟩ | ⟨h0, -⟩
  · exact h'
  · exact absurd h0 h

/-- A multiple of 4 completes with five characters for each chunk (R65, R71). -/
theorem exec_encode_of_length {s : State} (h : s.ilen % 4 = 0) :
    ∃ u, exec .encode s = .next (complete (s.ilen / 4 * 5) u) := by
  rcases execEncode_cases s with ⟨hne, -⟩ | ⟨-, u, hu, -⟩
  · exact absurd h hne
  · exact ⟨u, hu⟩

/-- Settles O24: the length alone tells the two completions apart. -/
theorem encodeChecksOnlyTheLength : Obligations.EncodeChecksOnlyTheLength := by
  intro s
  by_cases h : s.ilen % 4 = 0
  · obtain ⟨u, hu⟩ := exec_encode_of_length h
    exact ⟨_, hu, fun hne => absurd h hne, fun _ => rfl⟩
  · exact ⟨_, exec_encode_of_bad_length h, fun _ => rfl, fun h0 => absurd h0 h⟩

/-- Settles O26: OLEN of each completion, and the capacities that an input of that length has. -/
theorem encodeOutputLength : Obligations.EncodeOutputLength := by
  intro s
  by_cases h : s.ilen % 4 = 0
  · obtain ⟨u, hu⟩ := exec_encode_of_length h
    refine ⟨_, hu, fun _ => ⟨h, rfl⟩, fun hne => absurd rfl hne, fun lenW hle => ?_⟩
    have hout : s.ilen / 4 * 5 ≤ Config.outMax lenW := by
      unfold Config.outMax
      omega
    exact ⟨hout, hout.trans_lt (outMax_lt lenW)⟩
  · exact ⟨_, exec_encode_of_bad_length h, nofun, fun _ => rfl,
      fun lenW _ => ⟨Nat.zero_le _, Nat.two_pow_pos _⟩⟩

/-! ## The engine's loops (R72, R82, R118) -/

/-- How DECODE's loop ends: past its last chunk, or in the chunk that raises (R82). -/
theorem decLoop_ch_cases (s : State) :
    (∃ t, decLoop (s.ilen / 5) { s with ch := 0 } = .ok t ∧ t.ch = s.ilen / 5) ∨
    ∃ e t, decLoop (s.ilen / 5) { s with ch := 0 } = .error (e, t) ∧ t.ch < s.ilen / 5 := by
  have hspec := decLoop_spec (s.ilen / 5) { s with ch := 0 } (Nat.zero_add _)
  split at hspec
  · obtain ⟨-, t, ht, -, hch, -⟩ := hspec
    exact .inl ⟨t, ht, hch⟩
  · obtain ⟨t, ht, -, hch, -⟩ := hspec
    exact .inr ⟨_, t, ht, hch⟩

/-- Settles O31: from CH = 0 the chunks that remain are all of them, which is the bound each loop is given. -/
theorem engineLoopsEndByTheirOwnTest : Obligations.EngineLoopsEndByTheirOwnTest := by
  refine ⟨fun s => (encLoop_spec (s.ilen / 4) { s with ch := 0 } (Nat.zero_add _)).1, fun s t h => ?_,
    fun s t e h => ?_⟩
  · rcases decLoop_ch_cases s with ⟨t', ht, hch⟩ | ⟨e, t', ht, -⟩ <;> rw [ht] at h <;> cases h
    exact hch
  · rcases decLoop_ch_cases s with ⟨t', ht, -⟩ | ⟨e', t', ht, hch⟩ <;> rw [ht] at h <;> cases h
    exact hch

/-! ## The frame of ENCODE (R15, R68, R75) -/

/-- The cells that hold a value after a completion are those of the output (R15). -/
theorem complete_read?_isSome_iff {u : State} {out : List Byte} (hread : ∀ j < out.length, u.obuf.read? j = out[j]?)
    (i : Nat) : ((complete out.length u).obuf.read? i).isSome = true ↔ i < out.length := by
  rw [complete_obuf, Memory.read?_below]
  split
  · next hi => simp [hread i hi, hi]
  · next hi => simp [hi]

/-- The indices below `n` chunks of five are those of an offset in one of the chunks. -/
theorem lt_mul_five_iff (n i : Nat) : i < n * 5 ↔ ∃ c k, c < n ∧ k < 5 ∧ i = 5 * c + k := by
  constructor
  · exact fun h => ⟨i / 5, i % 5, by omega, by omega, by omega⟩
  · rintro ⟨c, k, hc, hk, rfl⟩
    omega

/-- Settles O32: the operation leaves the outside alone, and its completion lists the cells of the text, or none. -/
theorem encodeFrame : Obligations.EncodeFrame := by
  intro s t h
  obtain ⟨hout, -⟩ := exec_sameOutside h
  refine ⟨hout, congrFun (ibufRead_of_sameOutside hout), ?_⟩
  rcases exec_next_cases h with ⟨out, u, ho, rfl, -, -, hread⟩ | ⟨e, u, he, rfl, -⟩
  · have hlen : out.length = s.ilen / 4 * 5 := by
      rw [(codec_encode_ok ho).2, encChunks_length, input_length]
    refine ⟨fun _ i => ?_, fun hne => absurd rfl hne⟩
    rw [complete_read?_isSome_iff hread, hlen, lt_mul_five_iff]
  · obtain ⟨-, rfl⟩ := codec_encode_error he
    exact ⟨nofun, fun _ _ => rfl⟩

/-! ## The empty input (R67, R79) -/

/-- Both operations succeed on an empty input, with an empty output. -/
theorem exec_of_no_input (i : Instr) {s : State} (h : s.ilen = 0) :
    ∃ t, exec i s = .next t ∧ t.err = .none ∧ t.olen = 0 := by
  have hin : s.input = [] := List.eq_nil_of_length_eq_zero (by rw [input_length, h])
  have hc : codec i s.input = .ok [] := by
    rw [hin]
    cases i <;> rfl
  obtain ⟨u, hu, -⟩ := exec_of_codec_ok hc
  exact ⟨_, hu, rfl, rfl⟩

/-- Settles O49: the accepted START gives BUSY, and the operation that the engine's turn runs succeeds on no input. -/
theorem emptyInputSucceeds : Obligations.EmptyInputSucceeds := by
  intro op rest s hs hb h0
  have hstart := (step_of_host_of_ne_busy hs hb).trans
    (hostStart_of_ne_busy (s := { s with script := .engine :: rest }) op hb)
  obtain ⟨t, ht, herr, holen⟩ := exec_of_no_input (decodeOp op)
    (s := drawObuf { acceptStart op s with script := rest }) (by simpa using h0)
  obtain ⟨⟨hibuf, hilen, -⟩, hdone⟩ := exec_sameOutside ht
  refine ⟨_, t, hstart, rfl, ?_, hdone, herr, holen, ?_, ?_⟩
  · rw [step_of_engine rfl, engineTurn_of_busy rfl]
    exact ht
  · rw [← hilen]
    simpa using h0
  · rw [← hibuf]
    simp

end Sys2Proof.Machine

/-! # Proofs: DECODE, the value of a chunk, the round trip and the engine's run -/

namespace Sys2Proof.Machine

/-! ## The accumulate step (R84, R88) -/

/-- The accumulate step wraps where its exact value is 2^32 or more, which V and the digit tell (R88). -/
theorem macWord_wraps_iff (v : Word) (d : Digit) :
    (macWord v d).toNat ≠ v.toNat * 85 + d.val ↔ 50529027 < v.toNat ∨ v.toNat = 50529027 ∧ 1 ≤ d.val := by
  rw [macWord_toNat]
  omega

/-- A step from a small V is exact (R88). -/
theorem macWord_toNat_of_lt {v : Word} (h : v.toNat < 50529027) (d : Digit) :
    (macWord v d).toNat = v.toNat * 85 + d.val :=
  not_not.1 fun hne => by
    have := (macWord_wraps_iff v d).1 hne
    omega

/-- The first four steps of a chunk are exact, since V stays below 85^3 before each (R84, R88). -/
theorem macWord_first_four_toNat (d0 d1 d2 d3 : Digit) :
    (macWord 0 d0).toNat = d0.val ∧
    (macWord (macWord 0 d0) d1).toNat = d0.val * 85 + d1.val ∧
    (macWord (macWord (macWord 0 d0) d1) d2).toNat = (d0.val * 85 + d1.val) * 85 + d2.val ∧
    (macWord (macWord (macWord (macWord 0 d0) d1) d2) d3).toNat =
      ((d0.val * 85 + d1.val) * 85 + d2.val) * 85 + d3.val := by
  have h0 : (macWord 0 d0).toNat = d0.val := by
    simpa using macWord_toNat_of_lt (v := 0) (by decide) d0
  have h1 := macWord_toNat_of_lt (v := macWord 0 d0) (by omega) d1
  rw [h0] at h1
  have h2 := macWord_toNat_of_lt (v := macWord (macWord 0 d0) d1) (by omega) d2
  rw [h1] at h2
  have h3 := macWord_toNat_of_lt (v := macWord (macWord (macWord 0 d0) d1) d2) (by omega) d3
  rw [h2] at h3
  exact ⟨h0, h1, h2, h3⟩

/-- The five steps of a chunk leave the exact value modulo 2^32 (R81, R87). -/
theorem foldl_macWord_toNat (d0 d1 d2 d3 d4 : Digit) :
    ([d0, d1, d2, d3, d4].foldl macWord 0).toNat = digitsValue d0 d1 d2 d3 d4 % 2 ^ 32 := by
  obtain ⟨-, -, -, h3⟩ := macWord_first_four_toNat d0 d1 d2 d3
  simp only [List.foldl_cons, List.foldl_nil, macWord_toNat _ d4, h3, digitsValue]
  congr 1
  omega

/-- Settles O11: the step as it stands, and the four exact steps of a chunk. -/
theorem accumulateStepKeepsLow32Bits : Obligations.AccumulateStepKeepsLow32Bits := by
  refine ⟨fun d s => ⟨?_, by omega, rfl⟩, fun d0 d1 d2 d3 d4 => ?_⟩
  · rw [decMac_v, macWord_toNat, Nat.mul_comm]
  · obtain ⟨h0, h1, h2, h3⟩ := macWord_first_four_toNat d0 d1 d2 d3
    exact ⟨h0, h1, h2, h3, by omega⟩

/-- Characters of digits overflow where their exact value needs 33 bits (R87). -/
theorem overflows_alook_iff (d0 d1 d2 d3 d4 : Digit) :
    overflows (alook d0) (alook d1) (alook d2) (alook d3) (alook d4) = true ↔
      2 ^ 32 ≤ digitsValue d0 d1 d2 d3 d4 := by
  rw [overflows, chunkValue?_alook]
  exact decide_eq_true_iff

/-- The digits of 2^32 - 1 are 82, 23, 54, 12, 0, and the order of values is the lexicographic order of digits (R88). -/
theorem le_digitsValue_iff (d0 d1 d2 d3 d4 : Digit) :
    2 ^ 32 ≤ digitsValue d0 d1 d2 d3 d4 ↔
      82 < d0.val ∨ d0.val = 82 ∧ (23 < d1.val ∨ d1.val = 23 ∧ (54 < d2.val ∨ d2.val = 54 ∧
        (12 < d3.val ∨ d3.val = 12 ∧ 0 < d4.val))) := by
  unfold digitsValue
  omega

/-- Settles O15: four exact steps, the wrap of the fifth, and the digits of 2^32 - 1. -/
theorem onlyTheFifthAccumulateStepWraps : Obligations.OnlyTheFifthAccumulateStepWraps := by
  intro d0 d1 d2 d3 d4
  obtain ⟨-, -, -, h3⟩ := macWord_first_four_toNat d0 d1 d2 d3
  exact ⟨h3, macWord_wraps_iff _ d4,
    (overflows_alook_iff d0 d1 d2 d3 d4).trans (le_digitsValue_iff d0 d1 d2 d3 d4)⟩

/-- Settles O16: the four chunks, evaluated. -/
theorem overflowingChunksWrapSilently : Obligations.OverflowingChunksWrapSilently := by
  unfold Obligations.OverflowingChunksWrapSilently
  decide

/-! ## The characters of a chunk (R81) -/

/-- Characters of digits are accumulated to the end. -/
theorem decChars_alook (ds : List Digit) (k : Nat) (v : Word) :
    decChars k v (ds.map alook) = .good (ds.foldl macWord v) := by
  induction ds generalizing k v with
  | nil => rfl
  | cons d ds ih => rw [List.map_cons, decChars_of_digit _ _ _ (rlook_alook d), ih, List.foldl_cons]

/-- Characters that give a value are those of digits. -/
theorem exists_digits_of_decChars_good {cs : List Byte} {k : Nat} {v w : Word} (h : decChars k v cs = .good w) :
    ∃ ds : List Digit, cs = ds.map alook := by
  induction cs generalizing k v with
  | nil => exact ⟨[], rfl⟩
  | cons c cs ih =>
    by_cases hd : ∃ d, rlook c = .digit d
    · obtain ⟨d, hd⟩ := hd
      rw [decChars_of_digit _ _ _ hd] at h
      obtain ⟨ds, rfl⟩ := ih h
      exact ⟨d :: ds, by rw [List.map_cons, alook_of_rlook_eq_digit hd]⟩
    · rw [decChars_of_invalid _ _ _ (isDigit_eq_false (not_exists.1 hd))] at h
      cases h

/-- The characters of a chunk that gives a value are valid. -/
theorem isDigit_of_decChunk_good {c0 c1 c2 c3 c4 : Byte} {w : Word} (h : decChunk c0 c1 c2 c3 c4 = .good w) :
    ∀ c ∈ [c0, c1, c2, c3, c4], (rlook c).isDigit = true := by
  obtain ⟨ds, hds⟩ := exists_digits_of_decChars_good h
  rw [hds]
  intro c hc
  obtain ⟨d, -, rfl⟩ := List.mem_map.1 hc
  rw [rlook_alook]
  rfl

/-- A chunk that gives a value has an exact value (R50, R81). -/
theorem chunkValue?_ne_none_of_decChunk_good {c0 c1 c2 c3 c4 : Byte} {w : Word}
    (h : decChunk c0 c1 c2 c3 c4 = .good w) : chunkValue? c0 c1 c2 c3 c4 ≠ none := by
  obtain ⟨ds, hds⟩ := exists_digits_of_decChars_good h
  match ds, hds with
  | [d0, d1, d2, d3, d4], hds =>
    cases hds
    rw [chunkValue?_alook]
    exact Option.some_ne_none _

/-- Settles O14: characters of digits are accumulated to the end, and any others stop at the first invalid one. -/
theorem decodedChunkIsTheValueModulo2Pow32 : Obligations.DecodedChunkIsTheValueModulo2Pow32 := by
  refine fun c0 c1 c2 c3 c4 => ⟨fun n hn => ?_, fun hn => ?_⟩
  · obtain ⟨d0, d1, d2, d3, d4, rfl, rfl, rfl, rfl, rfl⟩ := exists_digits_of_chunkValue? hn
    rw [chunkValue?_alook, Option.some_inj] at hn
    subst hn
    exact ⟨_, decChars_alook [d0, d1, d2, d3, d4] 0 0, foldl_macWord_toNat d0 d1 d2 d3 d4⟩
  · rcases decChars_cases [c0, c1, c2, c3, c4] 0 0 with ⟨w, hw⟩ | ⟨j, c, -, hbad, hj, hc, hbefore⟩
    · exact absurd hn (chunkValue?_ne_none_of_decChunk_good hw)
    · exact ⟨j, c, by rw [decChunk, hbad, Nat.zero_add], hj, hc, hbefore⟩

/-! ## The round trip (R89) -/

/-- The text of four bytes has their value, which is below 2^32 and so decodes as it is. -/
theorem decChars_encChunk (b0 b1 b2 b3 : Byte) :
    decChars 0 0 (encChunk b0 b1 b2 b3) = .good (wordOfBytes b0 b1 b2 b3) := by
  let v := wordOfBytes b0 b1 b2 b3
  have htext : encChunk b0 b1 b2 b3 =
      [digitOfWord 4 v, digitOfWord 3 v, digitOfWord 2 v, digitOfWord 1 v, digitOfWord 0 v].map alook :=
    encChunk_eq_digits b0 b1 b2 b3
  rw [htext, decChars_alook]
  congr 1
  apply BitVec.eq_of_toNat_eq
  rw [foldl_macWord_toNat, digitsValue_digitOfWord, Nat.mod_eq_of_lt v.isLt]

/-- Whole chunks of bytes come back from their text, at any chunk number. -/
theorem decChunks_encChunks : ∀ (b : List Byte) (c : Nat), b.length % 4 = 0 → decChunks c (encChunks b) = .ok b
  | b0 :: b1 :: b2 :: b3 :: rest, c, h => by
    have ih := decChunks_encChunks rest (c + 1) (by simp only [List.length_cons] at h; omega)
    refine (decChunks_of_good c (encChunks rest) (decChars_encChunk b0 b1 b2 b3)).trans ?_
    rw [ih, bytesOfWord_wordOfBytes]
    rfl
  | [], _, _ => rfl
  | [_], _, h => by cases h
  | [_, _], _, h => by cases h
  | [_, _, _], _, h => by cases h

/-- Whole chunks of bytes encode (R65, R66). -/
theorem codec_encode_of_length {b : List Byte} (h : b.length % 4 = 0) : codec .encode b = .ok (encChunks b) :=
  if_neg (not_not.2 h)

/-- R89(a), with the text written out. -/
theorem codec_decode_encChunks {b : List Byte} (h : b.length % 4 = 0) : codec .decode (encChunks b) = .ok b := by
  rw [codec_decode_of_length (by rw [encChunks_length]; omega), decChunks_encChunks b 0 h]

/-- Settles O18: by the chunks, and by the value of each. -/
theorem decodingInvertsEncoding : Obligations.DecodingInvertsEncoding :=
  fun _ h => ⟨_, codec_encode_of_length h, codec_decode_encChunks h⟩

/-- A text of canonical chunks is the text of some whole chunks of bytes (R74). -/
theorem exists_encChunks_of_canonicalText : ∀ t : List Byte, canonicalText t = true →
    ∃ b, b.length % 4 = 0 ∧ encChunks b = t
  | c0 :: c1 :: c2 :: c3 :: c4 :: rest, h => by
    rw [canonicalText, Bool.and_eq_true] at h
    obtain ⟨hchunk, hrest⟩ := h
    obtain ⟨b0, b1, b2, b3, hb⟩ := (canonical_iff_exists_encChunk c0 c1 c2 c3 c4).1 hchunk
    obtain ⟨b, hlen, rfl⟩ := exists_encChunks_of_canonicalText rest hrest
    refine ⟨b0 :: b1 :: b2 :: b3 :: b, by simp only [List.length_cons]; omega, ?_⟩
    rw [encChunks, hb]
    rfl
  | [], _ => ⟨[], rfl, rfl⟩
  | [_], h => by cases h
  | [_, _], h => by cases h
  | [_, _, _], h => by cases h
  | [_, _, _, _], h => by cases h

/-- Settles O19: the text is that of some bytes, and these are what it decodes to. -/
theorem encodingInvertsCanonicalDecoding : Obligations.EncodingInvertsCanonicalDecoding := by
  intro t h
  obtain ⟨b, hlen, rfl⟩ := exists_encChunks_of_canonicalText t h
  exact ⟨b, codec_decode_encChunks hlen, codec_encode_of_length hlen⟩

/-! ## The run of DECODE (R77, R78, R86) -/

/-- Settles O23: the completion is that of the function on the input, with its bytes or with one of its two errors. -/
theorem decodeComputesDecode : Obligations.DecodeComputesDecode := by
  intro s
  cases hr : z85Decode s.input with
  | ok bytes =>
    obtain ⟨u, hu, -, -, hread⟩ := exec_of_codec_ok (i := .decode) hr
    exact ⟨_, hu, rfl, complete_result rfl hread, rfl, complete_read? rfl hread, rfl, rfl, rfl, rfl⟩
  | error e =>
    obtain ⟨u, hu, -⟩ := exec_of_codec_error (i := .decode) hr
    rcases codec_decode_error hr with ⟨-, rfl⟩ | ⟨p, c, rfl, -⟩
    · exact ⟨_, hu, rfl, rfl, rfl, rfl, rfl, rfl, rfl, rfl⟩
    · exact ⟨_, hu, rfl, rfl, rfl, rfl, rfl, rfl, rfl⟩

/-- A state whose input cells are the output cells of another reads that output as its input. -/
theorem input_eq_output {u t : State} (hlen : u.ilen = t.olen) (hcells : ∀ i < t.olen, ibufRead u i = obufRead t i) :
    u.input = t.output := by
  rw [State.input, State.output, hlen]
  exact List.map_congr_left fun i hi => hcells i (List.mem_range.1 hi)

/-- Settles O51: the second input is the text of the first, and the text decodes to it. -/
theorem machineRoundTrip : Obligations.MachineRoundTrip := by
  intro s h
  have hlen : s.input.length % 4 = 0 := by rwa [input_length]
  obtain ⟨x, hx, -, -, htext⟩ := exec_of_codec_ok (codec_encode_of_length hlen)
  refine ⟨_, hx, rfl, fun u hilen hcells => ?_⟩
  have hin : u.input = encChunks s.input :=
    (input_eq_output hilen hcells).trans (output_of_read? rfl (complete_read? rfl htext))
  obtain ⟨y, hy, -, -, hbytes⟩ := exec_of_codec_ok (hin ▸ codec_decode_encChunks hlen)
  exact ⟨_, hy, rfl, output_of_read? rfl (complete_read? rfl hbytes)⟩

/-! ## The first invalid character (R80, R83, R85) -/

/-- Everything whole chunks of text can give: bytes, where every character is valid; or InvalidByte at the first one that is
not, with its position counted in the whole input. -/
theorem decChunks_cases : ∀ (t : List Byte) (c : Nat), t.length % 5 = 0 →
    (∃ out, decChunks c t = .ok out ∧ ∀ ch ∈ t, (rlook ch).isDigit = true) ∨
    ∃ j ch, decChunks c t = .error (.invalidByte (5 * c + j) ch) ∧ t[j]? = some ch ∧ (rlook ch).isDigit = false ∧
      ∀ i < j, ∀ d, t[i]? = some d → (rlook d).isDigit = true
  | c0 :: c1 :: c2 :: c3 :: c4 :: rest, c, hl => by
    rcases decChars_cases [c0, c1, c2, c3, c4] 0 0 with ⟨w, hw⟩ | ⟨j, ch, hlt, hbad, hj, hch, hbefore⟩
    · have hvalid := isDigit_of_decChunk_good hw
      rw [decChunks_of_good c rest hw]
      rcases decChunks_cases rest (c + 1) (by simp only [List.length_cons] at hl; omega) with
        ⟨out, hok, hrest⟩ | ⟨j, ch, herr, hj, hch, hbefore⟩
      · refine .inl ⟨_, by rw [hok]; rfl, fun ch hmem => ?_⟩
        exact (List.mem_append.1 (show ch ∈ [c0, c1, c2, c3, c4] ++ rest from hmem)).elim (hvalid ch) (hrest ch)
      · refine .inr ⟨j + 5, ch, ?_, hj, hch, fun i hi d hd => ?_⟩
        · rw [herr, show 5 * (c + 1) + j = 5 * c + (j + 5) by omega]
          rfl
        · change ([c0, c1, c2, c3, c4] ++ rest)[i]? = some d at hd
          rw [List.getElem?_append] at hd
          split at hd
          · exact hvalid d (List.mem_of_getElem? hd)
          · next hge => exact hbefore _ (by simp only [List.length_cons, List.length_nil] at hge ⊢; omega) d hd
    · have hget : ∀ i ≤ j, (c0 :: c1 :: c2 :: c3 :: c4 :: rest)[i]? = [c0, c1, c2, c3, c4][i]? := fun i hi =>
        List.getElem?_append_left (l₂ := rest) (hi.trans_lt hlt)
      refine .inr ⟨j, ch, ?_, (hget j le_rfl).trans hj, hch, fun i hi d hd => ?_⟩
      · rw [decChunks, decChunk, hbad, Nat.zero_add]
      · exact hbefore i hi d ((hget i hi.le).symm.trans hd)
  | [], _, _ => .inl ⟨[], rfl, fun _ h => by cases h⟩
  | [_], _, h => by cases h
  | [_, _], _, h => by cases h
  | [_, _, _], _, h => by cases h
  | [_, _, _, _], _, h => by cases h

/-- A length that is no multiple of 5 raises at once (R78). -/
theorem exec_decode_of_bad_length {s : State} (h : s.ilen % 5 ≠ 0) :
    exec .decode s = .next (raise (.invalidLength 5) s) := by
  rcases execDecode_cases s with ⟨-, h'⟩ | ⟨h0, -⟩ | ⟨h0, -⟩
  · exact h'
  · exact absurd h0 h
  · exact absurd h0 h

/-- A multiple of 5 completes with four bytes for each chunk where every character is valid, and raises InvalidByte at the
first one that is not (R77, R80, R86). -/
theorem exec_decode_of_length {s : State} (h : s.ilen % 5 = 0) :
    (∃ u, exec .decode s = .next (complete (s.ilen / 5 * 4) u) ∧
      ∀ j < s.ilen, (rlook (ibufRead s j)).isDigit = true) ∨
    ∃ p u, exec .decode s = .next (raise (.invalidByte p (ibufRead s p)) u) ∧ p < s.ilen ∧
      (rlook (ibufRead s p)).isDigit = false ∧ ∀ j < p, (rlook (ibufRead s j)).isDigit = true := by
  have hlen : s.input.length % 5 = 0 := by rwa [input_length]
  rcases decChunks_cases s.input 0 hlen with ⟨out, hok, hvalid⟩ | ⟨p, ch, herr, hp, hch, hbefore⟩
  · rw [← codec_decode_of_length hlen] at hok
    obtain ⟨u, hu, -⟩ := exec_of_codec_ok hok
    rw [(codec_decode_ok hok).2, input_length] at hu
    refine .inl ⟨u, hu, fun j hj => hvalid _ (List.mem_of_getElem? (i := j) ?_)⟩
    rw [input_getElem?, if_pos hj]
  · rw [Nat.mul_zero, Nat.zero_add, ← codec_decode_of_length hlen] at herr
    obtain ⟨u, hu, -⟩ := exec_of_codec_error herr
    rw [input_getElem?, Option.ite_none_right_eq_some, Option.some_inj] at hp
    obtain ⟨hlt, rfl⟩ := hp
    refine .inr ⟨p, u, hu, hlt, hch, fun j hj => hbefore j hj _ ?_⟩
    rw [input_getElem?, if_pos (hj.trans hlt)]

/-- Settles O25: the length alone tells InvalidLength from the other completions. -/
theorem decodeChecksTheLengthFirst : Obligations.DecodeChecksTheLengthFirst := by
  intro s
  by_cases h : s.ilen % 5 = 0
  · rcases exec_decode_of_length h with ⟨u, hu, -⟩ | ⟨p, u, hu, -⟩ <;>
      exact ⟨_, hu, fun hne => absurd h hne, fun _ => nofun⟩
  · exact ⟨_, exec_decode_of_bad_length h, fun _ => rfl, fun h0 => absurd h0 h⟩

/-- Settles O27: OLEN of each completion. -/
theorem decodeOutputLength : Obligations.DecodeOutputLength := by
  intro s
  by_cases h : s.ilen % 5 = 0
  · rcases exec_decode_of_length h with ⟨u, hu, -⟩ | ⟨p, u, hu, -⟩
    · exact ⟨_, hu, fun _ => ⟨h, rfl⟩, fun hne => absurd rfl hne⟩
    · exact ⟨_, hu, nofun, fun _ => rfl⟩
  · exact ⟨_, exec_decode_of_bad_length h, nofun, fun _ => rfl⟩

/-- Settles O28: two indices that are both the first invalid one are the same. -/
theorem decodeReportsTheFirstInvalidCharacter : Obligations.DecodeReportsTheFirstInvalidCharacter := by
  intro s h
  rcases exec_decode_of_length h with ⟨u, hu, hvalid⟩ | ⟨q, u, hu, hq, hinvalid, hbefore⟩
  · exact ⟨_, hu, fun p hp hbad _ => by simp [hvalid p hp] at hbad, fun _ => rfl⟩
  · refine ⟨_, hu, fun p _ hbad hp => ?_, fun hall => by simp [hall q hq] at hinvalid⟩
    obtain rfl : p = q := by
      rcases Nat.lt_trichotomy p q with hlt | heq | hgt
      · simp [hbefore p hlt] at hbad
      · exact heq
      · simp [hp q hgt] at hinvalid
    exact ⟨rfl, rfl, rfl, rfl, rfl⟩

/-! ## The frame of DECODE (R15, R80, R90) -/

/-- DECODE writes no digit buffer (R90). -/
theorem exec_decode_dig {s t : State} (h : exec .decode s = .next t) : t.dig = s.dig := by
  change execDecode s = _ at h
  rcases execDecode_cases s with ⟨-, hr⟩ | ⟨-, e, u, hr, -, -, -, hdig⟩ | ⟨-, out, u, hr, -, -, -, hdig, -⟩ <;>
    rw [hr] at h <;> cases h
  · exact raise_dig _ s
  · exact (raise_dig e u).trans hdig
  · exact hdig

/-- The indices below `n` chunks of `m` are those of an offset in one of the chunks. -/
theorem lt_mul_iff_chunk_offset (n m i : Nat) : i < n * m ↔ ∃ c j, c < n ∧ j < m ∧ i = m * c + j := by
  constructor
  · intro h
    have hm : 0 < m := Nat.pos_of_lt_mul_left h
    exact ⟨i / m, i % m, Nat.div_lt_of_lt_mul (by rwa [Nat.mul_comm]), Nat.mod_lt i hm, (Nat.div_add_mod i m).symm⟩
  · rintro ⟨c, j, hc, hj, rfl⟩
    calc m * c + j < m * (c + 1) := by rw [Nat.mul_succ]; omega
      _ ≤ m * n := Nat.mul_le_mul_left m hc
      _ = n * m := Nat.mul_comm m n

/-- Settles O33: the operation leaves the outside and DIG alone, and its completion lists the cells of the bytes, or none. -/
theorem decodeFrame : Obligations.DecodeFrame := by
  intro s t h
  obtain ⟨hout, -⟩ := exec_sameOutside h
  refine ⟨hout, exec_decode_dig h, congrFun (ibufRead_of_sameOutside hout), ?_⟩
  rcases exec_next_cases h with ⟨out, u, ho, rfl, -, -, hread⟩ | ⟨e, u, he, rfl, -⟩
  · have hlen : out.length = s.ilen / 5 * 4 := by rw [(codec_decode_ok ho).2, input_length]
    refine ⟨fun _ i => ?_, fun hne => absurd rfl hne⟩
    rw [complete_read?_isSome_iff hread, hlen, lt_mul_iff_chunk_offset]
  · rcases codec_decode_error he with ⟨-, rfl⟩ | ⟨p, c, rfl, -⟩ <;> exact ⟨nofun, fun _ _ => rfl⟩

end Sys2Proof.Machine

/-! # Proofs: errors and how long the outcome stays -/

namespace Sys2Proof.Machine

/-! ## Raising an error (R93, R96, R98) -/

/-- Settles O36: both equations are the two branches of `raise`. -/
theorem raiseWritesTheErrorRegisters : Obligations.RaiseWritesTheErrorRegisters :=
  ⟨fun _ _ => rfl, fun _ _ _ => rfl⟩

/-- Settles O30: the length alone decides between success and InvalidLength(4). -/
theorem encodeNeverRaisesInvalidByte : Obligations.EncodeNeverRaisesInvalidByte := by
  intro s
  by_cases h : s.ilen % 4 = 0
  · obtain ⟨u, hu⟩ := exec_encode_of_length h
    exact ⟨_, hu, nofun⟩
  · exact ⟨_, exec_encode_of_bad_length h, nofun⟩

/-- Everything the error registers can say after an operation, in terms of the input at its START: no error; InvalidLength
with a divisor that does not divide the length; or InvalidByte at the first invalid character. -/
theorem exec_err_cases {i : Instr} {s t : State} (h : exec i s = .next t) :
    t.err = .none ∨
    (t.err = .invalidLength ∧ s.ilen % t.errDiv.toNat ≠ 0) ∨
    (t.err = .invalidByte ∧ t.errPos < s.ilen ∧ ibufRead s t.errPos = t.errChar ∧
      (rlook t.errChar).isDigit = false ∧ ∀ j < t.errPos, (rlook (ibufRead s j)).isDigit = true) := by
  cases i with
  | encode =>
    by_cases hl : s.ilen % 4 = 0
    · obtain ⟨u, hu⟩ := exec_encode_of_length hl
      cases hu.symm.trans h
      exact .inl rfl
    · cases (exec_encode_of_bad_length hl).symm.trans h
      exact .inr (.inl ⟨rfl, hl⟩)
  | decode =>
    by_cases hl : s.ilen % 5 = 0
    · rcases exec_decode_of_length hl with ⟨u, hu, -⟩ | ⟨p, u, hu, hp, hinvalid, hbefore⟩ <;> cases hu.symm.trans h
      · exact .inl rfl
      · exact .inr (.inr ⟨rfl, hp, rfl, hinvalid, hbefore⟩)
    · cases (exec_decode_of_bad_length hl).symm.trans h
      exact .inr (.inl ⟨rfl, hl⟩)

/-- Settles O29: the registers speak of the input at START, which the operation leaves unchanged. -/
theorem errorsArePrecise : Obligations.ErrorsArePrecise := by
  intro i s t h
  obtain ⟨hout, -⟩ := exec_sameOutside h
  have hcells : ibufRead t = ibufRead s := ibufRead_of_sameOutside hout
  obtain ⟨-, hilen, -⟩ := hout
  rw [hcells, ← hilen]
  rcases exec_err_cases h with herr | ⟨herr, hdiv⟩ | ⟨herr, hbyte⟩ <;> rw [herr]
  · exact ⟨nofun, nofun⟩
  · exact ⟨nofun, fun _ => hdiv⟩
  · exact ⟨fun _ => hbyte, nofun⟩

/-! ## The outcome stays (R99, R107) -/

/-- Of the actions of the world outside only a START and reset write what the host reads as the outcome. -/
theorem hostAct_sameOutcome {a : HostAction} {s t : State} (h : hostAct a s = .next t) (hstart : ∀ op, a ≠ .start op)
    (hreset : a ≠ .reset) : s.sameOutcome t := by
  rcases hostAct_next_cases h with ⟨i, b, -, -, rfl⟩ | ⟨n, -, -, rfl⟩ | ⟨op, ha, -⟩ | ⟨op, ha, -⟩ | ⟨r, -, rfl⟩ |
    ⟨ha, -⟩
  · exact ⟨rfl, rfl, rfl, rfl, rfl, rfl, fun _ _ => rfl⟩
  · exact ⟨rfl, rfl, rfl, rfl, rfl, rfl, fun _ _ => rfl⟩
  · exact absurd ha (hstart op)
  · exact absurd ha (hstart op)
  · exact ⟨rfl, rfl, rfl, rfl, rfl, rfl, fun _ _ => rfl⟩
  · exact absurd ha hreset

/-- Settles O40: while DONE the engine rests, so that a step is a turn used up or an action of the world outside. -/
theorem resultsHoldUntilTheNextStart : Obligations.ResultsHoldUntilTheNextStart := by
  intro s t hdone h hstart hreset
  have hb : s.status ≠ .busy := by simp [hdone]
  rcases step_next_cases h with ⟨r, -, -, rfl⟩ | ⟨r, -, hbusy, -⟩ | ⟨a, rest, hscr, ha⟩
  · exact ⟨rfl, rfl, rfl, rfl, rfl, rfl, fun _ _ => rfl⟩
  · exact absurd hbusy hb
  · rw [drawObuf_of_ne_busy (s := { s with script := rest }) hb] at ha
    refine hostAct_sameOutcome (s := { s with script := rest }) ha (fun op hop => ?_) fun hr => ?_
    · exact hstart op rest (hop ▸ hscr)
    · exact hreset rest (hr ▸ hscr)

end Sys2Proof.Machine

/-! # Proofs: reset, the hazards of a running operation, and its completion -/

namespace Sys2Proof.Machine

/-! ## Reset (R28, R108, R110) -/

/-- A reset, as a step: what the next reset number leaves, with the outside as it was. The draw number moves on once where
STATE is not BUSY and twice where it is. -/
theorem step_reset {s : State} {rest : List Turn} (hs : s.script = .host .reset :: rest) :
    ∃ m > s.obufNo,
      step s = .next { State.afterReset (s.resetNo + 1) m with script := rest, seen := s.seen } := by
  by_cases h : s.status = .busy
  · exact ⟨s.obufNo + 1 + 1, by omega, step_of_host_of_busy hs h⟩
  · exact ⟨s.obufNo + 1, by omega, step_of_host_of_ne_busy hs h⟩

/-- Settles O43: after a reset STATE is IDLE, where the engine rests and a START is accepted. -/
theorem resetGivesTheResetState : Obligations.ResetGivesTheResetState := by
  intro rest s hs
  obtain ⟨m, hm, hstep⟩ := step_reset hs
  exact ⟨_, hstep, rfl, rfl, rfl, rfl, rfl, rfl, rfl, fun _ => ⟨rfl, rfl⟩, rfl, rfl, Nat.lt_succ_self _, hm,
    engineTurn_of_ne_busy nofun, fun op => hostStart_of_ne_busy op nofun⟩

/-- Settles O44: the state after the reset is IDLE, so that the engine's turn only uses up the turn. -/
theorem resetAbortsARunningOperation : Obligations.ResetAbortsARunningOperation := by
  intro rest s _ hs
  obtain ⟨m, -, hstep⟩ := step_reset hs
  exact ⟨_, _, hstep, (step_of_engine rfl).trans (engineTurn_of_ne_busy nofun), rfl, rfl, rfl, rfl, rfl, rfl, rfl⟩

/-! ## The forbidden writes (R114) -/

/-- Exactly the host's writes to IBUF and ILEN while BUSY are no legal turns. -/
theorem State.legal_eq_false_iff (s : State) :
    s.legal = false ↔ s.status = .busy ∧
      ((∃ i b rest, s.script = .host (.writeIbuf i b) :: rest) ∨ ∃ n rest, s.script = .host (.writeIlen n) :: rest) := by
  unfold State.legal
  cases s.status with
  | idle => simp
  | done => simp
  | busy =>
    cases s.script with
    | nil => simp
    | cons turn rest =>
      cases turn with
      | engine => simp
      | wait => simp
      | host a => cases a <;> simp

theorem step_writeIbuf_of_busy {s : State} {i : Nat} {b : Byte} {rest : List Turn}
    (hs : s.script = .host (.writeIbuf i b) :: rest) (h : s.status = .busy) : step s = .fault .ibufWriteWhileBusy := by
  rw [step_of_host_of_busy hs h, hostAct, hostWriteIbuf, h]

theorem step_writeIlen_of_busy {s : State} {n : Nat} {rest : List Turn}
    (hs : s.script = .host (.writeIlen n) :: rest) (h : s.status = .busy) : step s = .fault .ilenWriteWhileBusy := by
  rw [step_of_host_of_busy hs h, hostAct, hostWriteIlen, h]

/-- The engine's turn always gives a next state: an operation ends in a completion step, and otherwise the engine
rests. -/
theorem engineTurn_next (s : State) : ∃ t, engineTurn s = .next t := by
  rcases engineTurn_cases s with ⟨-, h⟩ | ⟨-, h⟩
  · exact ⟨s, h⟩
  · obtain ⟨u, -, ⟨n, hexec⟩ | ⟨e, hexec⟩⟩ := exec_cases (fetch s) (drawObuf s)
    · exact ⟨_, h.trans hexec⟩
    · exact ⟨_, h.trans hexec⟩

/-- Every step on a legal turn gives a next state. -/
theorem step_next_of_legal {s : State} (h : s.legal = true) : ∃ t, step s = .next t := by
  have allowed := mt s.legal_eq_false_iff.2 (by simp [h])
  rcases step_cases s with ⟨-, hs⟩ | ⟨rest, -, hs⟩ | ⟨rest, -, -, hs⟩ | ⟨rest, -, -, hs⟩ | ⟨a, rest, hscr, hs⟩ <;>
    rw [hs]
  · exact engineTurn_next _
  · exact engineTurn_next _
  · exact ⟨_, rfl⟩
  · exact engineTurn_next _
  · rcases hostAct_cases a (drawObuf { s with script := rest }) with ⟨i, b, -, -, ha⟩ | ⟨i, b, rfl, hb, -⟩ |
      ⟨n, -, -, ha⟩ | ⟨n, rfl, hb, -⟩ | ⟨op, -, -, ha⟩ | ⟨op, -, -, ha⟩ | ⟨r, -, ha⟩ | ⟨-, ha⟩
    · exact ⟨_, ha⟩
    · exact absurd ⟨by simpa using hb, .inl ⟨i, b, rest, hscr⟩⟩ allowed
    · exact ⟨_, ha⟩
    · exact absurd ⟨by simpa using hb, .inr ⟨n, rest, hscr⟩⟩ allowed
    · exact ⟨_, ha⟩
    · exact ⟨_, ha⟩
    · exact ⟨_, ha⟩
    · exact ⟨_, ha⟩

/-- Settles O50: the turns that are not legal are the two forbidden writes, each with its own fault. -/
theorem stepStopsOnlyOnForbiddenWrites : Obligations.StepStopsOnlyOnForbiddenWrites := by
  refine ⟨fun s => step_next_of_legal, fun s h => ?_, fun i b rest s h hs => step_writeIbuf_of_busy hs h,
    fun n rest s h hs => step_writeIlen_of_busy hs h⟩
  obtain ⟨hb, ⟨i, b, rest, hs⟩ | ⟨n, rest, hs⟩⟩ := s.legal_eq_false_iff.1 h
  · exact ⟨_, step_writeIbuf_of_busy hs hb⟩
  · exact ⟨_, step_writeIlen_of_busy hs hb⟩

/-! ## A started operation completes (R39, R40, R58, R118) -/

/-- What the host reads after an error. -/
theorem raise_result (e : BlockError) (u : State) : (raise e u).result = .error e := by
  cases e <;> rfl

/-- What the host reads after an operation is what its function gives on the input. -/
theorem exec_result {i : Instr} {s t : State} (h : exec i s = .next t) : t.result = codec i s.input := by
  rcases exec_next_cases h with ⟨out, u, hout, rfl, -, -, hread⟩ | ⟨e, u, he, rfl, -⟩
  · rw [hout, complete_result rfl hread]
  · rw [he, raise_result]

/-- The end of a WAIT (R58). -/
theorem step_of_wait_of_done {s : State} {rest : List Turn} (hs : s.script = .wait :: rest) (h : s.status = .done) :
    step s = .next { s with script := rest } := by
  unfold step takeTurn
  rw [hs]
  unfold waitTurn
  rw [h]

/-- An operation that the engine begins while the host WAITs ends DONE with its function's outcome, and the WAIT after it
ends. -/
theorem step_wait_of_busy {s : State} {rest : List Turn} (hs : s.script = .wait :: rest) (h : s.status = .busy) :
    ∃ t, step s = .next t ∧ step t = .next { t with script := rest } ∧ t.status = .done ∧
      t.result = codec (fetch s) s.input := by
  obtain ⟨t, ht⟩ := engineTurn_next s
  have hexec := (engineTurn_of_busy h).symm.trans ht
  obtain ⟨⟨-, -, -, -, -, hscript, -⟩, hdone⟩ := exec_sameOutside hexec
  have hin : (drawObuf s).input = s.input := by rw [drawObuf_of_busy h]; rfl
  rw [drawObuf_script, hs] at hscript
  exact ⟨t, (step_of_wait hs (by simp [h])).trans ht, step_of_wait_of_done hscript.symm hdone, hdone,
    (exec_result hexec).trans (by rw [hin])⟩

/-- Settles O48: START is accepted, the WAIT gives the engine the turn in which the operation completes, and then the WAIT
ends. -/
theorem startedOperationsComplete : Obligations.StartedOperationsComplete := by
  intro op rest s hs hb
  have hstart := (step_of_host_of_ne_busy hs hb).trans
    (hostStart_of_ne_busy (s := { s with script := .wait :: rest }) op hb)
  obtain ⟨t, hrun, hend, hdone, hresult⟩ :=
    step_wait_of_busy (s := acceptStart op { s with script := .wait :: rest }) rfl rfl
  refine ⟨_, { t with script := rest }, run_succ hstart 0, rfl, ?_, hdone, rfl, hresult.trans ?_⟩
  · rw [run_succ hstart, run_succ hrun, run_succ hend, run_zero]
  · show codec (decodeOp op) s.input = _
    cases decodeOp op <;> rfl

end Sys2Proof.Machine

/-! # Proofs: the known vectors -/

namespace Sys2Proof.Machine

/-- A vector of whole chunks holds in both directions as soon as its text is the encoding of its bytes (R65, R89(a)). -/
theorem codec_both_of_encChunks_eq {b t : List Byte} (hlen : b.length % 4 = 0) (ht : encChunks b = t) :
    codec .encode b = .ok t ∧ codec .decode t = .ok b := by
  subst ht
  exact ⟨codec_encode_of_length hlen, codec_decode_encChunks hlen⟩

/-- Settles O17: of each vector the encoding is evaluated, and the round trip gives the other direction. -/
theorem knownVectorsHold : Obligations.KnownVectorsHold := by
  have hs1 : encChunks [0x86, 0x4F, 0xD2, 0x6F, 0xB5, 0x59, 0xF7, 0x5B] =
    [0x48, 0x65, 0x6C, 0x6C, 0x6F, 0x57, 0x6F, 0x72, 0x6C, 0x64] := by decide
  have hs2 : encChunks [0xAB, 0xCD, 0xEF, 0xAA, 0x55, 0x33, 0x11, 0x00] =
    [0x54, 0x69, 0x48, 0x61, 0x6B, 0x72, 0x77, 0x4C, 0x69, 0x21] := by decide
  have hs3 : encChunks [0x3E, 0xDC, 0x70, 0xD2, 0xBF, 0xF1, 0x01, 0x1B] =
    [0x6B, 0x68, 0x70, 0x62, 0x39, 0x5A, 0x57, 0x52, 0x73, 0x7A] := by decide
  obtain ⟨henc1, hdec1⟩ := codec_both_of_encChunks_eq rfl hs1
  obtain ⟨henc2, hdec2⟩ := codec_both_of_encChunks_eq rfl hs2
  obtain ⟨henc3, hdec3⟩ := codec_both_of_encChunks_eq rfl hs3
  exact ⟨henc1, hdec1, henc2, hdec2, henc3, hdec3⟩

end Sys2Proof.Machine
